-- ==== Sys2Proof/Word.lean ====
section
/-!
DEFINITION. The bit-vector types of the machine: byte, register word, pair, register specifier
(00_scope.md R5 Table P1: XLEN = 32, NGR = 32, ILEN = 32; 10_state.md R20, R22).
-/

namespace Sys2Proof

/-- A byte of the program text (20_memory.md R41, R42). -/
abbrev Byte := BitVec 8

/-- A general register, an address or an instruction word: 32 bits (10_state.md R20, R27; 30_encoding.md R55). -/
abbrev Word := BitVec 32

/-- The value of a register pair: 64 bits (10_state.md R22). -/
abbrev Pair := BitVec 64

/-- A register specifier: a 5-bit instruction field (30_encoding.md R61). -/
abbrev Reg := BitVec 5

end Sys2Proof
end

