-- ==== Sys2Proof/Config.lean ====
section
/-!
DEFINITION. What the spec leaves open: the two OPEN parameters of 00_scope.md Table P1 and the draws of
R10. Each is an opaque constant: nothing can prove a value of it, so a theorem holds for every value.
(The parameters of Table P1 to which the spec gives a value are in Machine/Params.lean.)
-/

namespace Sys2Proof

/-- What a half of GR_CLIP_SUB writes when it borrows (41_clip.md R102, decision D6). -/
inductive ClipSubBorrow where
  /-- the saturating reading of the source's Operation line: 0 -/
  | zero
  /-- the plain reading of its Description: the difference modulo 2^32 -/
  | wrap
  deriving DecidableEq, Repr, Inhabited

/-- OPEN parameter `ClipSubBorrowResult` (41_clip.md R102, D6; log 7, safe). -/
opaque Config.clipSubBorrowResult : ClipSubBorrow

/-- OPEN parameter `ClipPred`, a function of SX and SY alone (41_clip.md R104, D9; log 8, safe). -/
opaque Config.clipPred : BitVec 4 → BitVec 4 → Bool

/-- The free values: draw number `n` of the run, under no law (00_scope.md R10 `draw(n)`; 40_arith.md R87, D5; log 6, safe). -/
opaque Config.draw : Nat → Word

end Sys2Proof
end

