-- ==== Sys2Proof/Machine/Params.lean ====
section
/-!
DEFINITION. The parameters of 00_scope.md Table P1 that the spec fixes by a decision of its own, each
under its own name (R5: "a configuration field and not a literal"), and the test that a specifier names a pair.
Each value is a DESIGN CHOICE of the spec (92_eei_decisions.md); the value not chosen is what the spec's
own text names as the alternative (log 26).
-/

namespace Sys2Proof.Machine

/-- The three colours of a triplet (10_state.md R23). -/
inductive Colour where
  | red
  | green
  | blue
  deriving DecidableEq, Repr

/-- What an odd value does in a field that must name an even register: the readings that 92_eei_decisions.md D2
names for it. -/
inductive OddPairRule where
  /-- the model refuses the word (the spec's decision) -/
  | refuse
  /-- the unit traps; the spec describes no trap entry (60_exceptions.md R134), so here too the model refuses -/
  | trap
  /-- the low bit is ignored: the field names the pair of the even register below -/
  | ignoreLowBit
  /-- registers r and r+1 are used anyway; at r = 31 there is no r+1 and the model refuses -/
  | useNext
  deriving DecidableEq, Repr

/-- `ODD_PAIR_SPECIFIER` (10_state.md R22, 30_encoding.md R62, D2; log 18, DESIGN CHOICE, safe). -/
def Params.oddPairSpecifier : OddPairRule := .refuse

/-- `PAIR_HIGH_IS_EVEN` (10_state.md R22, D1; log 9, DESIGN CHOICE, unsafe). -/
def Params.pairHighIsEven : Bool := true

/-- `GR0_IS_ZERO` (10_state.md R21, D3; log 10, DESIGN CHOICE, unsafe). -/
def Params.gr0IsZero : Bool := true

/-- `RED_IS_FIRST_FIELD`: the colours of a triplet's fields, most significant first
(40_arith.md R81, D4; log 11, DESIGN CHOICE, unsafe). -/
def Params.fieldColours : Colour × Colour × Colour := (.red, .green, .blue)

/-- `CLIP_CARRY_IS_NOT_BORROW` (41_clip.md R101(a), D7; log 12, DESIGN CHOICE, absorbed by `ClipPred`). -/
def Params.clipCarryIsNotBorrow : Bool := true

/-- `CLIP_SHIFT_LEFT` (41_clip.md R101(b), D8; log 12, DESIGN CHOICE, absorbed by `ClipPred`). -/
def Params.clipShiftLeft : Bool := true

/-- `CLIP_TEST_KEEPS_SHIFT_REGS` (41_clip.md R103, D10; log 13, DESIGN CHOICE, unsafe). -/
def Params.clipTestKeepsShiftRegs : Bool := true

/-- `PACK_DEST_IS_PAIR` (43_pack.md R122, D11; log 14, DESIGN CHOICE, unsafe). -/
def Params.packDestIsPair : Bool := false

/-- `INSN_BIG_ENDIAN` (20_memory.md R42, D14; log 17, DESIGN CHOICE, unsafe). -/
def Params.insnBigEndian : Bool := true

/-- `SFU_NUMBER`: the unit number of the graphics unit (30_encoding.md R56). -/
def Params.sfuNumber : BitVec 3 := 1

/-- The specifier names an even register, as a specifier of a pair must (10_state.md R22, 30_encoding.md R62). -/
def isEven (r : Reg) : Bool := r.toNat % 2 == 0

/-- The first register of the pair that a specifier names, if it names one (R22, R62, D2). -/
def pairBase (r : Reg) : Option Reg :=
  if isEven r then some r
  else match Params.oddPairSpecifier with
    | .refuse | .trap => none
    | .ignoreLowBit => some (r - 1)
    | .useNext => if r = 31 then none else some r

/-- The specifier names a pair. -/
def namesPair (r : Reg) : Bool := (pairBase r).isSome

/-- A legal destination of a pack instruction: any register, unless the destination is read as a pair
(43_pack.md R122). -/
def packDestOk (t : Reg) : Bool := !Params.packDestIsPair || isEven t

end Sys2Proof.Machine
end

