-- ==== Sys2Proof/Syntax.lean ====
section
/-!
DEFINITION. The eight instructions of spec/opcode_table.json, one constructor per row, in the table's order.
Operands are the variable fields of 30_encoding.md Table E2, in the order of the assembler syntax
(R67: first source r1, second source r2, destination t).
-/

namespace Sys2Proof

/-- An instruction of the graphics SFU (00_scope.md R1). -/
inductive Instr where
  /-- GR_ARITH_5 (40_arith.md R82): P(t) <- P(r1) op P(r2) on twelve 5-bit fields. -/
  | grArith5 (r1 r2 t : Reg)
  /-- GR_ARITH_5_5 (40_arith.md R83): P(t) <- P(r1) op P(r2) on six 5.5-bit fields. -/
  | grArith55 (r1 r2 t : Reg)
  /-- GR_PACK_5_5 (43_pack.md R120): GR[t] <- the integer parts of the six 5.5 fields of P(r2). -/
  | grPack55 (r2 t : Reg)
  /-- GR_CLIP_SUB (41_clip.md R100): P(t) <- P(r1) - P(r2) by halves, carries into SX and SY. -/
  | grClipSub (r1 r2 t : Reg)
  /-- GR_ARITH_8_8 (40_arith.md R84): P(t) <- P(r1) op P(r2) on four 8.8 fields. -/
  | grArith88 (r1 r2 t : Reg)
  /-- GR_PACK_8_8 (43_pack.md R121): GR[t] <- the integer bytes of the four 8.8 fields of P(r2). -/
  | grPack88 (r2 t : Reg)
  /-- GR_CLIP_TEST (41_clip.md R103): PSW.N from the outcode shift registers. -/
  | grClipTest
  /-- GR_MTCL (42_mtcl.md R115): Gr_R1 <- the three least significant bits of GR[r2]. -/
  | grMtcl (r2 : Reg)
  deriving DecidableEq, Repr

end Sys2Proof
end

