-- ==== Sys2Proof/WellFormed.lean ====
section
/-!
DEFINITION. Which instruction terms the encoding can express: 30_encoding.md Table E3 and R62.
-/

namespace Sys2Proof

/-- Every specifier in a field for a pair names one, that is, it is even (30_encoding.md Table E3, D2; for t of
GR_CLIP_SUB: D28, 90_conflicts.md C10). -/
def Instr.wellFormed : Instr → Bool
  | .grArith5 r1 r2 t | .grArith55 r1 r2 t | .grArith88 r1 r2 t | .grClipSub r1 r2 t =>
    Machine.namesPair r1 && Machine.namesPair r2 && Machine.namesPair t
  | .grPack55 r2 t | .grPack88 r2 t => Machine.namesPair r2 && Machine.packDestOk t
  | .grClipTest | .grMtcl _ => true

end Sys2Proof
end

