-- ==== Sys2Proof/Decode.lean ====
section
/-!
DEFINITION. 30_encoding.md: the one instruction format (Table E1), the decoder (R59, Tables E2 and E3), the
encoder (R60), and the bytes of a word (20_memory.md R42).
-/

namespace Sys2Proof

/-- The eight fields of the format, most significant first (30_encoding.md R56 Table E1). -/
@[ext]
structure Fields where
  op  : BitVec 6
  r2  : Reg
  r1  : Reg
  sub : BitVec 5
  sel : BitVec 2
  sfu : BitVec 3
  n   : BitVec 1
  t   : Reg
  deriving DecidableEq, Repr

/-- Why the decoder refuses a word; all three are safe (the model stops where the chip does something, log 18). -/
inductive DecodeError where
  /-- not a word of the family: another PA-RISC instruction (R66, D16) -/
  | notGraphicsSfu (w : Word)
  /-- a word of the family that matches no row of Table E2 (R65, D16) -/
  | reservedGraphicsSfuEncoding (w : Word)
  /-- a word of a row with an odd value in a field that names a pair (R62, D2, D28) -/
  | oddPairSpecifier (w : Word)
  /-- fewer than four bytes where a word is wanted (byte level only, R55) -/
  | truncated
  deriving DecidableEq, Repr

/-- The fields of a word (Table E1). -/
def fieldsOf (w : Word) : Fields where
  op  := w.extractLsb' 26 6
  r2  := w.extractLsb' 21 5
  r1  := w.extractLsb' 16 5
  sub := w.extractLsb' 11 5
  sel := w.extractLsb' 9 2
  sfu := w.extractLsb' 6 3
  n   := w.extractLsb' 5 1
  t   := w.extractLsb' 0 5

/-- The word with the given fields (Table E1, R60). -/
def wordOf (f : Fields) : Word :=
  f.op ++ f.r2 ++ f.r1 ++ f.sub ++ f.sel ++ f.sfu ++ f.n ++ f.t

/-- The family test (R59): op = 4, sel = 3, sfu = the graphics unit. -/
def inFamily (f : Fields) : Bool :=
  f.op == 4 && f.sel == 3 && f.sfu == Machine.Params.sfuNumber

/-- The row of Table E2 that the fields of a family word match, with its operands. -/
def rowOf (f : Fields) : Option Instr :=
  match f.sub.toNat with
  | 1 => if f.n = 0 then some (.grArith5 f.r1 f.r2 f.t) else none
  | 2 => if f.n = 0 then some (.grArith55 f.r1 f.r2 f.t) else none
  | 3 => if f.n = 0 ∧ f.r1 = 0 then some (.grPack55 f.r2 f.t) else none
  | 4 => if f.n = 0 then some (.grClipSub f.r1 f.r2 f.t) else none
  | 5 => if f.n = 0 then some (.grArith88 f.r1 f.r2 f.t) else none
  | 6 => if f.n = 0 ∧ f.r1 = 0 then some (.grPack88 f.r2 f.t) else none
  | 7 => if f.n = 1 ∧ f.r2 = 0 ∧ f.r1 = 0 ∧ f.t = 0 then some .grClipTest else none
  | 8 => if f.n = 0 ∧ f.r1 = 0 ∧ f.t = 0 then some (.grMtcl f.r2) else none
  | _ => none

/-- The fields of an instruction (R58, R60). -/
def encodeFields : Instr → Fields
  | .grArith5 r1 r2 t  => { op := 4, r2 := r2, r1 := r1, sub := 1, sel := 3, sfu := Machine.Params.sfuNumber, n := 0, t := t }
  | .grArith55 r1 r2 t => { op := 4, r2 := r2, r1 := r1, sub := 2, sel := 3, sfu := Machine.Params.sfuNumber, n := 0, t := t }
  | .grPack55 r2 t     => { op := 4, r2 := r2, r1 := 0,  sub := 3, sel := 3, sfu := Machine.Params.sfuNumber, n := 0, t := t }
  | .grClipSub r1 r2 t => { op := 4, r2 := r2, r1 := r1, sub := 4, sel := 3, sfu := Machine.Params.sfuNumber, n := 0, t := t }
  | .grArith88 r1 r2 t => { op := 4, r2 := r2, r1 := r1, sub := 5, sel := 3, sfu := Machine.Params.sfuNumber, n := 0, t := t }
  | .grPack88 r2 t     => { op := 4, r2 := r2, r1 := 0,  sub := 6, sel := 3, sfu := Machine.Params.sfuNumber, n := 0, t := t }
  | .grClipTest        => { op := 4, r2 := 0,  r1 := 0,  sub := 7, sel := 3, sfu := Machine.Params.sfuNumber, n := 1, t := 0 }
  | .grMtcl r2         => { op := 4, r2 := r2, r1 := 0,  sub := 8, sel := 3, sfu := Machine.Params.sfuNumber, n := 0, t := 0 }

/-- The decoder (R59): family, then row, then the even specifiers of Table E3. -/
def decode (w : Word) : Except DecodeError Instr :=
  if inFamily (fieldsOf w) then
    match rowOf (fieldsOf w) with
    | some i => if i.wellFormed then .ok i else .error (.oddPairSpecifier w)
    | none => .error (.reservedGraphicsSfuEncoding w)
  else .error (.notGraphicsSfu w)

/-- The word of an instruction (R60). -/
def encode (i : Instr) : Word := wordOf (encodeFields i)

/-- The word made of the four bytes at rising addresses (20_memory.md R42, D14). -/
def wordOfBytes (b0 b1 b2 b3 : Byte) : Word :=
  if Machine.Params.insnBigEndian then b0 ++ b1 ++ b2 ++ b3 else b3 ++ b2 ++ b1 ++ b0

/-- Byte `k` (0 to 3) of a word in memory, byte 0 at the lowest address (20_memory.md R42, D14). -/
def byteOfWord (w : Word) (k : Nat) : Byte :=
  if Machine.Params.insnBigEndian then w.extractLsb' (8 * (3 - k)) 8 else w.extractLsb' (8 * k) 8

/-- The four bytes of a word, at rising addresses. -/
def bytesOfWord (w : Word) : List Byte :=
  [byteOfWord w 0, byteOfWord w 1, byteOfWord w 2, byteOfWord w 3]

/-- The decoder on bytes at rising addresses: the instruction and the bytes after it (R55: always one word). -/
def decodeBytes : List Byte → Except DecodeError (Instr × List Byte)
  | b0 :: b1 :: b2 :: b3 :: rest =>
    match decode (wordOfBytes b0 b1 b2 b3) with
    | .ok i => .ok (i, rest)
    | .error e => .error e
  | _ => .error .truncated

/-- The word whose low `nbits` bits are `w`, the others zero. -/
def tableWord (nbits w : Nat) : Word := BitVec.ofNat 32 (w % 2 ^ nbits)

/-- What the decoder reads from a table row's bits, laid out in memory. -/
def decodeTableWord (nbits w : Nat) : Option Instr :=
  match decodeBytes (bytesOfWord (tableWord nbits w)) with
  | .ok (i, _) => some i
  | .error _ => none

end Sys2Proof
end

