-- ==== Sys2Proof/Machine/State.lean ====
section
/-!
DEFINITION. The state of the machine (10_state.md R20 to R34), its reset value, and the reasons a step can stop.
-/

namespace Sys2Proof.Machine

/-- The program text as bytes at rising addresses; an address that is not listed has no value
(20_memory.md R41: `Text` is a partial function; log 4). -/
abbrev Memory := List Host.Cell

/-- Faults: none. No in-scope instruction raises an exception (60_exceptions.md R130), and the spec's own
unwritten-read fault (10_state.md R33, D26) cannot arise where every register holds a value at reset (log 3). -/
inductive Fault where
  deriving DecidableEq, Repr

/-- What the host may do during a run that the model has no step for (60_exceptions.md R131, R132, R138; D20, D21, D27). -/
inductive HostEvent where
  /-- the graphics unit is absent or disabled (R131, 93_implementation_defined.md U17) -/
  | unitUnavailable
  /-- an interrupt is taken (R132, U18) -/
  | interrupt
  /-- another user of the graphics unit runs (R138, U18) -/
  | otherUser
  deriving DecidableEq, Repr

/-- Why the model gives a step no meaning. Every one is safe: the chip does something, the model stops. -/
inductive Refusal where
  /-- Raised by a refused arm of exec: the instruction has no meaning yet (no arm is refused). Safe. -/
  | notModelled (mnemonic : String)
  /-- Raised by fetch: the pc is not a multiple of 4 (10_state.md R30, D15; log 15). Safe. -/
  | misalignedPc
  /-- Raised by fetch: the pc is 0xFFFFFFFC, its successor would wrap (10_state.md R30, D12; log 15). Safe. -/
  | pcWrap
  /-- Raised by fetch: there is no text at the pc (20_memory.md R41; log 4). Safe. -/
  | noText
  /-- Raised by step: the decoder refuses the word (30_encoding.md R62, R65, R66; log 18). Safe. -/
  | undecodable (e : DecodeError)
  /-- Raised by a meaning given a pair specifier that is odd, which no decoded instruction holds
  (10_state.md R22, D2; log 24). Safe. -/
  | oddPairSpecifier
  /-- Raised by the run of a launched program, never by a step: the host does something during the run that the
  premises LP_unit and LP_alone exclude (70_reset_and_hazards.md R157; log 27). Safe. -/
  | outsidePremises (e : HostEvent)
  deriving DecidableEq, Repr

/-- The machine (10_state.md): GR[0..31], Gr_R1, SX, SY, PSW.N, pc; the program text, which the spec makes a
parameter (R34; log 4); and the model's own counter of draws (log 6). -/
structure State where
  /-- the general registers (R20); read and written through `State.readGR` and `State.writeGR` alone -/
  regs  : Vector Word 32
  /-- the graphics control register Gr_R1 (R23) -/
  grR1  : BitVec 3
  /-- the outcode shift register fed by the carry out of pair bit 0 (R24) -/
  sx    : BitVec 4
  /-- the outcode shift register fed by the carry out of pair bit 32 (R24) -/
  sy    : BitVec 4
  /-- PSW[N]: the instruction at the pc is skipped (R25) -/
  pswN  : Bool
  /-- the address of the instruction to execute (R27) -/
  pc    : Word
  /-- the program text (20_memory.md R41) -/
  mem   : Memory
  /-- how many draws have been made (the model's own field, log 6) -/
  draws : Nat
  deriving DecidableEq, Repr

/-- The machine after reset. The spec gives no reset value (10_state.md R33 Table S2, 70_reset_and_hazards.md R150):
every value here is a DESIGN CHOICE of the model, unsafe (log 1, log 2), and nothing is listed in memory (log 4, log 5). -/
def State.reset : State where
  regs  := Vector.replicate 32 0
  grR1  := 0
  sx    := 0
  sy    := 0
  pswN  := false
  pc    := 0
  mem   := []
  draws := 0

end Sys2Proof.Machine
end

