-- ==== Sys2Proof/Machine/Ops.lean ====
section
/-!
DEFINITION. The named operations over memory, registers, the pc and the draws. There is no operation that takes
an exception and none that returns from one: the spec describes neither (60_exceptions.md R130, R134).
-/

namespace Sys2Proof.Machine

/-! ### The program text (20_memory.md R41, R42) -/

/-- The byte at an address, if one is listed. -/
def Memory.read : Memory → Nat → Option Byte
  | [], _ => none
  | (a, b) :: m, x => if x = a then some b else Memory.read m x

/-- Put a byte at an address, keeping addresses strictly rising. Used by the load of a program only (log 5). -/
def Memory.write : Memory → Nat → Byte → Memory
  | [], x, v => [(x, v)]
  | (a, b) :: m, x, v =>
    if x < a then (x, v) :: (a, b) :: m
    else if x = a then (x, v) :: m
    else (a, b) :: Memory.write m x v

/-- Addresses strictly rise from `lo` and stay below 2^32. -/
def Memory.wfFrom : Nat → Memory → Bool
  | _, [] => true
  | lo, (a, _) :: m => decide (lo ≤ a) && decide (a < 2 ^ 32) && Memory.wfFrom (a + 1) m

/-- The canonical form: strictly rising 32-bit addresses. (An unlisted address reads as no value, so no
entry can equal what an unlisted address reads as.) -/
def Memory.wf (m : Memory) : Bool := Memory.wfFrom 0 m

/-- The byte of the text at an address. -/
def State.readByte (s : State) (a : Nat) : Option Byte := s.mem.read a

/-- The address of byte `k` of the word at `a`. -/
def byteAddr (a : Word) (k : Nat) : Nat := (a + BitVec.ofNat 32 k).toNat

/-- `Text(a)`: the word at an address, where all of its four bytes are listed. -/
def Memory.readWord (m : Memory) (a : Word) : Option Word :=
  match m.read (byteAddr a 0), m.read (byteAddr a 1), m.read (byteAddr a 2), m.read (byteAddr a 3) with
  | some b0, some b1, some b2, some b3 => some (wordOfBytes b0 b1 b2 b3)
  | _, _, _, _ => none

/-- Put a word at an address. -/
def Memory.writeWord (m : Memory) (a w : Word) : Memory :=
  (((m.write (byteAddr a 0) (byteOfWord w 0)).write (byteAddr a 1) (byteOfWord w 1)).write
    (byteAddr a 2) (byteOfWord w 2)).write (byteAddr a 3) (byteOfWord w 3)

/-! ### General registers (10_state.md R21) -/

/-- The register file's index of a specifier. -/
theorem reg_lt (r : Reg) : r.toNat < 32 := r.isLt

/-- `GR[r]`; register 0 reads as zero (D3). -/
def State.readGR (s : State) (r : Reg) : Word :=
  if Params.gr0IsZero && r == 0 then 0 else s.regs[r.toNat]'(reg_lt r)

/-- `GR[r] <- v`; a write of register 0 has no effect (D3). -/
def State.writeGR (s : State) (r : Reg) (v : Word) : State :=
  if Params.gr0IsZero && r == 0 then s else { s with regs := s.regs.set r.toNat v (reg_lt r) }

/-! ### Register pairs (10_state.md R22) -/

/-- `P(r)`: the even register holds the more significant half (D1). -/
def State.readPair (s : State) (r : Reg) : Pair :=
  if Params.pairHighIsEven then s.readGR r ++ s.readGR (r + 1) else s.readGR (r + 1) ++ s.readGR r

/-- The more significant half of a pair value, `v{0:31}`. -/
def highHalf (v : Pair) : Word := v.extractLsb' 32 32

/-- The less significant half of a pair value, `v{32:63}`. -/
def lowHalf (v : Pair) : Word := v.extractLsb' 0 32

/-- `P(r) <- v`. -/
def State.writePair (s : State) (r : Reg) (v : Pair) : State :=
  if Params.pairHighIsEven then (s.writeGR r (highHalf v)).writeGR (r + 1) (lowHalf v)
  else (s.writeGR r (lowHalf v)).writeGR (r + 1) (highHalf v)

/-! ### Draws (00_scope.md R10; log 6) -/

/-- The value of the next draw: nothing is known of it. -/
def State.draw (s : State) : Word := Config.draw s.draws

/-- The draw has been made: the next one is another. -/
def State.takeDraw (s : State) : State := { s with draws := s.draws + 1 }

/-- The destination of a pack instruction (43_pack.md R122, D11): one register; under the reading that
`PACK_DEST_IS_PAIR` records, the odd register of the pair also takes any value. -/
def State.writePackDest (s : State) (t : Reg) (v : Word) : State :=
  if Params.packDestIsPair then ((s.writeGR t v).writeGR (t + 1) s.draw).takeDraw else s.writeGR t v

/-! ### The program counter and skipping (10_state.md R27, R28, R29) -/

/-- `pc <- pc + 4`. -/
def State.advancePc (s : State) : State := { s with pc := s.pc + 4 }

/-- The instruction at the pc is skipped: PSW.N is cleared and the pc moves past it (R29, D13). -/
def State.skip (s : State) : State := { s with pswN := false }.advancePc

/-- `Fetch(pc)` with the checks of R30, in R28's order. -/
def State.fetch (s : State) : Host.Outcome Word Fault Refusal :=
  if s.pc.toNat % 4 ≠ 0 then .refused .misalignedPc
  else if s.pc = 0xFFFFFFFC then .refused .pcWrap
  else match s.mem.readWord s.pc with
    | some w => .next w
    | none => .refused .noText

/-- The machine with a word loaded at the pc, to be executed and not skipped (a load from outside, log 5). -/
def State.loadWord (s : State) (w : Word) : State :=
  { s with mem := s.mem.writeWord s.pc w, pswN := false }

end Sys2Proof.Machine
end

