-- ==== Sys2Proof/Machine/Operands.lean ====
section
/-!
DEFINITION. Operand forms: bit fields in the source's numbering (00_scope.md R7), saturating field arithmetic
(R9), the pixel layouts of 40_arith.md Tables A1 to A3 and of 43_pack.md, and the shapes "pair, pair, pair" and
"pair, register" of 30_encoding.md Table E3.
-/

namespace Sys2Proof.Machine

/-- The `w` bits of `v` from source bit `a` on: `v{a : a+w-1}`, bit 0 the most significant (R7). -/
def field {W : Nat} (v : BitVec W) (a w : Nat) : BitVec w := v.extractLsb' (W - a - w) w

/-! ### Saturation (00_scope.md R9) -/

/-- `satadd_w(a, b)`: the exact sum, or the greatest value if it is greater. -/
def satAdd {w : Nat} (a b : BitVec w) : BitVec w :=
  if a.toNat + b.toNat ≤ 2 ^ w - 1 then BitVec.ofNat w (a.toNat + b.toNat) else BitVec.ofNat w (2 ^ w - 1)

/-- `satsub_w(a, b)`: the exact difference, or 0 if it is negative. -/
def satSub {w : Nat} (a b : BitVec w) : BitVec w :=
  if b.toNat ≤ a.toNat then BitVec.ofNat w (a.toNat - b.toNat) else 0

/-- `satop_w(s, a, b)`: add where the select bit is 0, subtract where it is 1. -/
def satOp {w : Nat} (sel : Bool) (a b : BitVec w) : BitVec w := if sel then satSub a b else satAdd a b

/-- The select bit of a colour (10_state.md R23, 40_arith.md R81). -/
def selectBit (g : BitVec 3) : Colour → Bool
  | .red => g.getLsbD 2
  | .green => g.getLsbD 1
  | .blue => g.getLsbD 0

/-! ### Pixel arithmetic (40_arith.md) -/

/-- One triplet of `w`-bit colour fields under `u` unused bits, which take the value `d` (R80, R81, R87). -/
def arithTriplet {u w : Nat} (g : BitVec 3) (d : BitVec u) (a b : BitVec (u + w + w + w)) : BitVec (u + w + w + w) :=
  d ++ satOp (selectBit g Params.fieldColours.1) (field a u w) (field b u w)
    ++ satOp (selectBit g Params.fieldColours.2.1) (field a (u + w) w) (field b (u + w) w)
    ++ satOp (selectBit g Params.fieldColours.2.2) (field a (u + w + w) w) (field b (u + w + w) w)

/-- GR_ARITH_5 (R82, Table A1): four halfwords of one unused bit and three 5-bit fields; `d` holds the unused bits. -/
def arith5 (g : BitVec 3) (d : BitVec 4) (a b : Pair) : Pair :=
  arithTriplet (u := 1) (w := 5) g (field d 0 1) (field a 0 16) (field b 0 16)
    ++ arithTriplet (u := 1) (w := 5) g (field d 1 1) (field a 16 16) (field b 16 16)
    ++ arithTriplet (u := 1) (w := 5) g (field d 2 1) (field a 32 16) (field b 32 16)
    ++ arithTriplet (u := 1) (w := 5) g (field d 3 1) (field a 48 16) (field b 48 16)

/-- GR_ARITH_5_5 (R83, Table A2): two fullwords of two unused bits and three 10-bit fields. -/
def arith55 (g : BitVec 3) (d : BitVec 4) (a b : Pair) : Pair :=
  arithTriplet (u := 2) (w := 10) g (field d 0 2) (field a 0 32) (field b 0 32)
    ++ arithTriplet (u := 2) (w := 10) g (field d 2 2) (field a 32 32) (field b 32 32)

/-- GR_ARITH_8_8 (R84, Table A3): four 16-bit fields, all selected by the least significant bit of Gr_R1. -/
def arith88 (g : BitVec 3) (a b : Pair) : Pair :=
  satOp (selectBit g .blue) (field a 0 16) (field b 0 16)
    ++ satOp (selectBit g .blue) (field a 16 16) (field b 16 16)
    ++ satOp (selectBit g .blue) (field a 32 16) (field b 32 16)
    ++ satOp (selectBit g .blue) (field a 48 16) (field b 48 16)

/-! ### Packing (43_pack.md) -/

/-- GR_PACK_5_5 (R120): the integer parts of six 5.5 fields; `d` holds the two unused result bits. -/
def pack55 (d : BitVec 2) (v : Pair) : Word :=
  field d 0 1 ++ field v 2 5 ++ field v 12 5 ++ field v 22 5
    ++ field d 1 1 ++ field v 34 5 ++ field v 44 5 ++ field v 54 5

/-- GR_PACK_8_8 (R121): the integer bytes of four 8.8 fields. -/
def pack88 (v : Pair) : Word := field v 0 8 ++ field v 16 8 ++ field v 32 8 ++ field v 48 8

/-! ### Operand shapes (30_encoding.md Table E3) -/

/-- Three pairs: both operands are read before the result is written (40_arith.md R88); `k` takes the two operands and
the first register of pair t and gives the state before the pc moves. A specifier that names no pair is refused (R62, D2). -/
def pairOp (r1 r2 t : Reg) (s : State) (k : Pair → Pair → Reg → State) : Host.Outcome State Fault Refusal :=
  match pairBase r1, pairBase r2, pairBase t with
  | some p, some q, some d => .next (k (s.readPair p) (s.readPair q) d).advancePc
  | _, _, _ => .refused .oddPairSpecifier

/-- A pair and a single destination: `GR[t] <- f(P(r2))`, then the next instruction (43_pack.md R122). -/
def packOp (r2 t : Reg) (f : Pair → Word) (s : State) : Host.Outcome State Fault Refusal :=
  match pairBase r2 with
  | some p =>
    if packDestOk t then .next (s.writePackDest t (f (s.readPair p))).advancePc else .refused .oddPairSpecifier
  | none => .refused .oddPairSpecifier

end Sys2Proof.Machine
end

