-- ==== Sys2Proof/Machine/Arith.lean ====
section
/-!
DEFINITION. The graphics arithmetic family (40_arith.md): GR_ARITH_5, GR_ARITH_5_5, GR_ARITH_8_8.
-/

namespace Sys2Proof.Machine

/-- GR_ARITH_5 (R82); the four unused result bits are drawn (R87, D5). -/
def execGrArith5 (r1 r2 t : Reg) (s : State) : Host.Outcome State Fault Refusal :=
  pairOp r1 r2 t s fun a b d => s.takeDraw.writePair d (arith5 s.grR1 (s.draw.extractLsb' 0 4) a b)

/-- GR_ARITH_5_5 (R83); the four unused result bits are drawn (R87, D5). -/
def execGrArith55 (r1 r2 t : Reg) (s : State) : Host.Outcome State Fault Refusal :=
  pairOp r1 r2 t s fun a b d => s.takeDraw.writePair d (arith55 s.grR1 (s.draw.extractLsb' 0 4) a b)

/-- GR_ARITH_8_8 (R84); every result bit is specified. -/
def execGrArith88 (r1 r2 t : Reg) (s : State) : Host.Outcome State Fault Refusal :=
  pairOp r1 r2 t s fun a b d => s.writePair d (arith88 s.grR1 a b)

end Sys2Proof.Machine
end

