-- ==== Sys2Proof/Machine/Flags.lean ====
section
/-!
DEFINITION. The carries of GR_CLIP_SUB, the outcode shift registers and the clipped difference
(41_clip.md R100 to R102), and the outcome of GR_CLIP_TEST (R103). No in-scope instruction writes another
flag (10_state.md R26).
-/

namespace Sys2Proof.Machine

/-- The carry out of the subtraction `a - b`: 1 exactly when there is no borrow (R101(a), D7). -/
def clipCarry (a b : Word) : Bool :=
  if Params.clipCarryIsNotBorrow then decide (b.toNat ≤ a.toNat) else decide (a.toNat < b.toNat)

/-- A 4-bit shift register takes a carry: at the least significant end, the others moving up (R101(b), D8). -/
def shiftIn (r : BitVec 4) (c : Bool) : BitVec 4 :=
  if Params.clipShiftLeft then r.extractLsb' 0 3 ++ BitVec.ofBool c else BitVec.ofBool c ++ r.extractLsb' 1 3

/-- `clipdiff(a, b)`: the exact difference, or on a borrow what the open parameter says (R102, D6). -/
def clipDiff (a b : Word) : Word :=
  if b.toNat ≤ a.toNat then a - b
  else match Config.clipSubBorrowResult with
    | .zero => 0
    | .wrap => a - b

/-- The two 32-bit differences of GR_CLIP_SUB, X then Y (R100). -/
def clipSub (a b : Pair) : Pair :=
  clipDiff (highHalf a) (highHalf b) ++ clipDiff (lowHalf a) (lowHalf b)

/-- SX takes the carry of the X half, SY that of the Y half (R101(c), D8). -/
def State.shiftOutcodes (s : State) (a b : Pair) : State :=
  { s with sx := shiftIn s.sx (clipCarry (highHalf a) (highHalf b)),
           sy := shiftIn s.sy (clipCarry (lowHalf a) (lowHalf b)) }

/-- PSW.N becomes 0 where the outcodes indicate preclipping and 1 otherwise (R103); SX and SY are kept (D10). -/
def State.testOutcodes (s : State) : State :=
  { s with pswN := !Config.clipPred s.sx s.sy,
           sx := if Params.clipTestKeepsShiftRegs then s.sx else 0,
           sy := if Params.clipTestKeepsShiftRegs then s.sy else 0 }

end Sys2Proof.Machine
end

