-- ==== Sys2Proof/Machine/Clip.lean ====
section
/-!
DEFINITION. The clip family (41_clip.md): GR_CLIP_SUB, GR_CLIP_TEST.
-/

namespace Sys2Proof.Machine

/-- GR_CLIP_SUB (R100): pair r1 minus pair r2 (90_conflicts.md C2), the carries shifted into SX and SY. -/
def execGrClipSub (r1 r2 t : Reg) (s : State) : Host.Outcome State Fault Refusal :=
  pairOp r1 r2 t s fun a b d => (s.shiftOutcodes a b).writePair d (clipSub a b)

/-- GR_CLIP_TEST (R103). -/
def execGrClipTest (s : State) : Host.Outcome State Fault Refusal :=
  .next s.testOutcodes.advancePc

end Sys2Proof.Machine
end

