-- ==== Sys2Proof/Machine/Control.lean ====
section
/-!
DEFINITION. The move to the graphics control register (42_mtcl.md): GR_MTCL.
-/

namespace Sys2Proof.Machine

/-- GR_MTCL (R115): Gr_R1 takes source bits 29 to 31 of GR[r2] (90_conflicts.md C5). -/
def execGrMtcl (r2 : Reg) (s : State) : Host.Outcome State Fault Refusal :=
  .next { s with grR1 := field (s.readGR r2) 29 3 }.advancePc

end Sys2Proof.Machine
end

