-- ==== Sys2Proof/Machine/Pack.lean ====
section
/-!
DEFINITION. The pack family (43_pack.md): GR_PACK_5_5, GR_PACK_8_8.
-/

namespace Sys2Proof.Machine

/-- GR_PACK_5_5 (R120); the two unused result bits are drawn (D5). -/
def execGrPack55 (r2 t : Reg) (s : State) : Host.Outcome State Fault Refusal :=
  packOp r2 t (pack55 (s.draw.extractLsb' 0 2)) s.takeDraw

/-- GR_PACK_8_8 (R121); every result bit is specified. -/
def execGrPack88 (r2 t : Reg) (s : State) : Host.Outcome State Fault Refusal :=
  packOp r2 t pack88 s

end Sys2Proof.Machine
end

