-- ==== Sys2Proof/Machine/Dispatch.lean ====
section
/-!
DEFINITION. What each instruction does: one arm per constructor of Instr, one meaning per arm.
-/

namespace Sys2Proof.Machine

def exec (i : Instr) (s : State) : Host.Outcome State Fault Refusal :=
  match i with
  | .grArith5 r1 r2 t => Sys2Proof.Machine.execGrArith5 r1 r2 t s
  | .grArith55 r1 r2 t => Sys2Proof.Machine.execGrArith55 r1 r2 t s
  | .grPack55 r2 t => Sys2Proof.Machine.execGrPack55 r2 t s
  | .grClipSub r1 r2 t => Sys2Proof.Machine.execGrClipSub r1 r2 t s
  | .grArith88 r1 r2 t => Sys2Proof.Machine.execGrArith88 r1 r2 t s
  | .grPack88 r2 t => Sys2Proof.Machine.execGrPack88 r2 t s
  | .grClipTest => Sys2Proof.Machine.execGrClipTest s
  | .grMtcl r2 => Sys2Proof.Machine.execGrMtcl r2 s

end Sys2Proof.Machine
end

