-- ==== Sys2Proof/Machine/Step.lean ====
section
/-!
DEFINITION. One step of the machine (10_state.md R28), and the load of one instruction where the next step
fetches it (log 5).
-/

namespace Sys2Proof.Machine

/-- Decode a fetched word and execute it; a word the decoder refuses is refused by the decoder's reason (R28). -/
def execWord (w : Word) (s : State) : Host.Outcome State Fault Refusal :=
  match decode w with
  | .ok i => exec i s
  | .error e => .refused (.undecodable e)

/-- The step (R28): fetch; skip if PSW.N is 1, without decoding (R29, D13); otherwise decode and execute. -/
def step (s : State) : Host.Outcome State Fault Refusal :=
  match s.fetch with
  | .next w => if s.pswN then .next s.skip else execWord w s
  | .fault f => .fault f
  | .refused r => .refused r

/-- The state with an instruction, numbered as spec/opcode_table.json numbers its bits, loaded at the pc;
PSW.N is cleared, since an instruction that PSW.N skips would not run (log 5). -/
def State.withFetchWord (s : State) (nbits w : Nat) : State := s.loadWord (tableWord nbits w)

end Sys2Proof.Machine
end

