-- ==== Sys2Proof/Machine/Launch.lean ====
section
/-!
DEFINITION. The launch of a program and its run to the end (70_reset_and_hazards.md R155, decision D25; log 27).
-/

namespace Sys2Proof.Machine

/-- The values a precondition gives to cells of the launch state; a cell it does not list keeps what it held before,
of which nothing is known (R155, R157 LP_state; for "unwritten": log 3). -/
structure Precondition where
  /-- general registers with their values -/
  regs    : List (Reg × Word)
  /-- Gr_R1, if it is given -/
  grR1    : Option (BitVec 3)
  /-- which bits of SX are given -/
  sxGiven : BitVec 4
  /-- the values of the given bits of SX -/
  sx      : BitVec 4
  /-- which bits of SY are given -/
  syGiven : BitVec 4
  /-- the values of the given bits of SY -/
  sy      : BitVec 4
  deriving DecidableEq, Repr

/-- A launch: the base address B, the L words of the text, the precondition, and what the host does during the run. -/
structure Launch where
  base : Word
  text : List Word
  pre  : Precondition
  host : List HostEvent
  deriving DecidableEq, Repr

/-- The address at which the run ends, B + 4L. -/
def Launch.stop (l : Launch) : Nat := l.base.toNat + 4 * l.text.length

/-- The bytes of words at an address and after it, and nothing elsewhere. -/
def Memory.ofWords : Nat → List Word → Memory
  | _, [] => []
  | a, w :: ws =>
    (a, byteOfWord w 0) :: (a + 1, byteOfWord w 1) :: (a + 2, byteOfWord w 2) :: (a + 3, byteOfWord w 3) ::
      Memory.ofWords (a + 4) ws

/-- Write general registers, one after the other. -/
def State.writeGRs (s : State) : List (Reg × Word) → State
  | [] => s
  | rv :: rest => (s.writeGR rv.1 rv.2).writeGRs rest

/-- The bits of `v` that are given, the others of `old`. -/
def givenBits (old given v : BitVec 4) : BitVec 4 := (old &&& ~~~given) ||| (v &&& given)

/-- Put the values of a precondition into the cells it lists. -/
def State.preload (s : State) (p : Precondition) : State :=
  { s.writeGRs p.regs with
      grR1 := p.grR1.getD s.grR1, sx := givenBits s.sx p.sxGiven p.sx, sy := givenBits s.sy p.syGiven p.sy }

/-- The launch (R155): the text at the base and nowhere else, pc at the base, PSW.N = 0, the cells of the precondition.
A base that is not a multiple of 4, or an end beyond 0xFFFFFFFC, is refused. -/
def Launch.load (l : Launch) (s : State) : Host.Outcome State Fault Refusal :=
  if l.base.toNat % 4 ≠ 0 then .refused .misalignedPc
  else if 0xFFFFFFFC < l.stop then .refused .pcWrap
  else .next { s.preload l.pre with pc := l.base, pswN := false, mem := Memory.ofWords l.base.toNat l.text }

/-- Steps until the pc is at `stop`, at most `k` of them; a step that stops ends the run with its reason (R155). -/
def runUntil (stop : Nat) : Nat → State → Host.Outcome State Fault Refusal
  | 0, s => .next s
  | k + 1, s =>
    if s.pc.toNat = stop then .next s
    else match step s with
      | .next u => runUntil stop k u
      | .fault f => .fault f
      | .refused r => .refused r

/-- The run of a launched program (R155): from the launch to the pc B + 4L. The model has no step for an event of the
host, so a run with one is refused by the event's name (R131, R132, R138; U17, U18). -/
def Launch.run (l : Launch) (s : State) : Host.Outcome State Fault Refusal :=
  match l.host with
  | e :: _ => .refused (.outsidePremises e)
  | [] => match l.load s with
    | .next u => runUntil l.stop l.text.length u
    | .fault f => .fault f
    | .refused r => .refused r

end Sys2Proof.Machine
end

