-- ==== Sys2Proof/Safety.lean ====
section
/-!
DEFINITION. The terms the claims are written in: the invariant of a safe run, the numerical reading of a bit
field (00_scope.md R7), the exact value of a saturating field operation (R9, 40_arith.md R85), a Format row as a
number (30_encoding.md R58), the rows of Table E2 as masks, and the launch premises (70_reset_and_hazards.md R157).
-/

namespace Sys2Proof.Machine

/-- What every step keeps: the text is in canonical form (20_memory.md R41), the pc is a multiple of 4
(10_state.md R27), and the hidden cell of register 0 holds zero (R21), so that equal machines are equal data. -/
abbrev State.Inv (s : State) : Prop :=
  s.mem.wf = true ∧ s.pc.toNat % 4 = 0 ∧ s.regs[0] = 0

/-- `v{a:b}` as a number, for a value of `W` bits: `(v >> (W-1-b)) mod 2^(b-a+1)` (00_scope.md R7). -/
def fieldVal {W : Nat} (v : BitVec W) (a b : Nat) : Nat := v.toNat / 2 ^ (W - 1 - b) % 2 ^ (b + 1 - a)

/-- The value of `satop_w` on numbers: `min(a + b, 2^w - 1)` to add, `max(a - b, 0)` to subtract
(00_scope.md R9, 40_arith.md R85; subtraction of natural numbers stops at 0). -/
def satVal (subtract : Bool) (w a b : Nat) : Nat := if subtract then a - b else min (a + b) (2 ^ w - 1)

/-- The number a Format row stands for, its contents in fields of 6 5 5 5 2 3 1 5 bits (30_encoding.md R58). -/
def formatRow (op r2 r1 sub sel sfu n t : Nat) : Nat :=
  ((((((op * 2 ^ 5 + r2) * 2 ^ 5 + r1) * 2 ^ 5 + sub) * 2 ^ 2 + sel) * 2 ^ 3 + sfu) * 2 ^ 1 + n) * 2 ^ 5 + t

/-- A row of 30_encoding.md Table E2, with the bits that the even specifiers of Table E3 require to be 0. -/
structure TableRow where
  pattern : Word
  mask    : Word
  odd     : Word
  instr   : Reg → Reg → Reg → Instr

/-- Table E2 with Table E3, in the order of `sub`; `instr` takes the fields r1, r2, t. -/
def tableE2 : List TableRow :=
  [{ pattern := 0x10000E40, mask := 0xFC00FFE0, odd := 0x00210001, instr := fun r1 r2 t => .grArith5 r1 r2 t },
   { pattern := 0x10001640, mask := 0xFC00FFE0, odd := 0x00210001, instr := fun r1 r2 t => .grArith55 r1 r2 t },
   { pattern := 0x10001E40, mask := 0xFC1FFFE0, odd := 0x00200000, instr := fun _ r2 t => .grPack55 r2 t },
   { pattern := 0x10002640, mask := 0xFC00FFE0, odd := 0x00210001, instr := fun r1 r2 t => .grClipSub r1 r2 t },
   { pattern := 0x10002E40, mask := 0xFC00FFE0, odd := 0x00210001, instr := fun r1 r2 t => .grArith88 r1 r2 t },
   { pattern := 0x10003640, mask := 0xFC1FFFE0, odd := 0x00200000, instr := fun _ r2 t => .grPack88 r2 t },
   { pattern := 0x10003E60, mask := 0xFFFFFFFF, odd := 0, instr := fun _ _ _ => .grClipTest },
   { pattern := 0x10004640, mask := 0xFC1FFFFF, odd := 0, instr := fun _ r2 _ => .grMtcl r2 }]

/-- The register specifier at LSB-0 bits `lo+4 : lo` of a word (Table E1, column "extraction"). -/
def specifierAt (w : Word) (lo : Nat) : Reg := BitVec.ofNat 5 (w.toNat / 2 ^ lo % 32)

/-- The program text holds the word `w` at the byte address `a`, its most significant byte first (20_memory.md R42). -/
def State.textAt (s : State) (a : Nat) (w : Word) : Prop :=
  ∀ k < 4, s.readByte (a + k) = some (BitVec.ofNat 8 (w.toNat / 2 ^ (8 * (3 - k))))

/-- The launch premises of 70_reset_and_hazards.md R157, each once and under its name, for a launch `l` whose load
answered `o`, and the launch state `s`. `named` is the property of the open parameters that the claim assumes. -/
structure LaunchPremises (l : Launch) (named : (BitVec 4 → BitVec 4 → Bool) → ClipSubBorrow → Prop)
    (o : Host.Outcome State Fault Refusal) (s : State) : Prop where
  /-- LP_pc: pc = B, B a multiple of 4, B + 4L <= 0xFFFFFFFC -/
  lp_pc : s.pc = l.base ∧ l.base.toNat % 4 = 0 ∧ l.base.toNat + 4 * l.text.length ≤ 0xFFFFFFFC
  /-- LP_n: PSW.N = 0, so the first word is executed -/
  lp_n : s.pswN = false
  /-- LP_text: the text is the L given words, and nothing else is text (that it does not change during the run is a
  fact of the model: no step writes it) -/
  lp_text : (∀ (k : Nat) (w : Word), l.text[k]? = some w → s.textAt (l.base.toNat + 4 * k) w) ∧
    ∀ a, a < l.base.toNat ∨ l.base.toNat + 4 * l.text.length ≤ a → s.readByte a = none
  /-- LP_unit: the graphics unit is present and enabled for the whole run; about the host, errs toward proving (D20, log 19) -/
  lp_unit : HostEvent.unitUnavailable ∉ l.host
  /-- LP_alone: no interrupt is taken and no other user of the unit runs meanwhile; about the host, errs toward proving
  (D21, D27, log 19) -/
  lp_alone : HostEvent.interrupt ∉ l.host ∧ HostEvent.otherUser ∉ l.host
  /-- LP_clean: no fault and no refusal at launch -/
  lp_clean : o = .next s
  /-- LP_state: each general register, Gr_R1 and each bit of SX and SY that the precondition gives has that value
  (register 0 reads 0 whatever is given, 10_state.md Table S2); the others are whatever they are (log 3) -/
  lp_state : (∀ rv ∈ l.pre.regs, rv.1 ≠ 0 → s.readGR rv.1 = rv.2) ∧ (∀ g, l.pre.grR1 = some g → s.grR1 = g) ∧
    s.sx &&& l.pre.sxGiven = l.pre.sx &&& l.pre.sxGiven ∧ s.sy &&& l.pre.syGiven = l.pre.sy &&& l.pre.syGiven
  /-- LP_param: `ClipPred` and `ClipSubBorrowResult` are arbitrary but for the property the claim names -/
  lp_param : named Config.clipPred Config.clipSubBorrowResult

/-- Everything but the general registers, the pc and the draws is as before: Gr_R1, SX, SY, PSW.N and every byte
of the text. -/
def State.sameControl (s s' : State) : Prop :=
  s'.grR1 = s.grR1 ∧ s'.sx = s.sx ∧ s'.sy = s.sy ∧ s'.pswN = s.pswN ∧ ∀ a, s'.readByte a = s.readByte a

end Sys2Proof.Machine
end

