-- ==== Sys2Proof/Certificates/Slice0/Obligations.lean ====
section
/-!
DEFINITION. The statements about the graphics SFU, from the spec's numbered rules. Each docstring says which rule
it formalises, and which of its clauses rest on a choice (log n = notes/assumptions/n.md). Wherever a statement says
pc + 4, that is the spec's decision D12 (log 15), and that exec itself moves the pc is log 25. A state here is one
in which every cell holds a value (log 3).
-/

open Sys2Proof Sys2Proof.Machine

/-! ### Encoding (30_encoding.md) -/

/-- 95_test_vectors.md section 2.1: words written out from the Format rows decode to their instructions, and the
refused words are refused by name (the places of the fields in the word are R55's, PRESUMED, log 22; the refusals are the
spec's decisions D2 and D16, log 18). -/
def Obligations.SampleWordsDecode : Prop :=
  decode 0x10C40E48 = .ok (.grArith5 4 6 8) ∧ decode 0x10C41648 = .ok (.grArith55 4 6 8) ∧
  decode 0x10C42E48 = .ok (.grArith88 4 6 8) ∧ decode 0x108A264C = .ok (.grClipSub 10 4 12) ∧
  decode 0x10003E60 = .ok .grClipTest ∧ decode 0x13E04640 = .ok (.grMtcl 31) ∧
  decode 0x11401E4D = .ok (.grPack55 10 13) ∧ decode 0x13C0365F = .ok (.grPack88 30 31) ∧
  decode 0x10C40E49 = .error (.oddPairSpecifier 0x10C40E49) ∧
  decode 0x1104264D = .error (.oddPairSpecifier 0x1104264D) ∧
  decode 0x10003E40 = .error (.reservedGraphicsSfuEncoding 0x10003E40) ∧
  decode 0x10604641 = .error (.reservedGraphicsSfuEncoding 0x10604641) ∧
  decode 0x10000E80 = .error (.notGraphicsSfu 0x10000E80)

/-- 30_encoding.md section 1: the word of each instruction is the number its Format row (R58) prints, in fields of 6 5 5 5 2 3
1 5 bits. That the first field is the most significant one is not in the row: it is R55's passage from general knowledge (G9),
log 22, PRESUMED and unsafe. -/
def Obligations.FormatRowsAsPrinted : Prop :=
  ∀ r1 r2 t : Reg,
    (encode (.grArith5 r1 r2 t)).toNat = formatRow 4 r2.toNat r1.toNat 1 3 1 0 t.toNat ∧
    (encode (.grArith55 r1 r2 t)).toNat = formatRow 4 r2.toNat r1.toNat 2 3 1 0 t.toNat ∧
    (encode (.grArith88 r1 r2 t)).toNat = formatRow 4 r2.toNat r1.toNat 5 3 1 0 t.toNat ∧
    (encode (.grClipSub r1 r2 t)).toNat = formatRow 4 r2.toNat r1.toNat 4 3 1 0 t.toNat ∧
    (encode .grClipTest).toNat = formatRow 4 0 0 7 3 1 1 0 ∧
    (encode (.grMtcl r2)).toNat = formatRow 4 r2.toNat 0 8 3 1 0 0 ∧
    (encode (.grPack55 r2 t)).toNat = formatRow 4 r2.toNat 0 3 3 1 0 t.toNat ∧
    (encode (.grPack88 r2 t)).toNat = formatRow 4 r2.toNat 0 6 3 1 0 t.toNat

/-- The round trip, one way (30_encoding.md section 2): no operand bit of a well-formed instruction is lost. The even
specifiers of the premise are the spec's decision D2 (log 18). -/
def Obligations.DecodeOfEncode : Prop :=
  ∀ i : Instr, i.wellFormed = true → decode (encode i) = .ok i

/-- The round trip, the other way (30_encoding.md section 2): a decoded word is the word of a well-formed instruction,
so no two words decode alike. That a decoded instruction has even pair specifiers is section 3 with the spec's decision
D2 (log 18, DESIGN CHOICE). -/
def Obligations.EncodeOfDecode : Prop :=
  ∀ (w : Word) (i : Instr), decode w = .ok i → encode i = w ∧ i.wellFormed = true

/-- 30_encoding.md Tables E2 and E3: the decoder accepts exactly the words that a row's mask and match select and
whose pair specifiers are even, with the operands at the bit positions of Table E1. (Refusing an odd specifier is
the spec's decision D2, log 18; the bit positions are R55's, log 22.) -/
def Obligations.DecodeIsTableE2 : Prop :=
  ∀ (w : Word) (i : Instr), decode w = .ok i ↔
    ∃ row ∈ tableE2, w &&& row.mask = row.pattern ∧ w &&& row.odd = 0 ∧
      i = row.instr (specifierAt w 16) (specifierAt w 21) (specifierAt w 0)

/-- 30_encoding.md sections 2 and 4: what is not accepted is refused by its name: outside the family, reserved in
the family, or a row with an odd pair specifier (the spec's decisions D2 and D16, log 18; the bit positions are R55's, log 22). -/
def Obligations.DecodeRefusesByName : Prop :=
  ∀ w : Word,
    if w &&& 0xFC0007C0 ≠ 0x10000640 then decode w = .error (.notGraphicsSfu w)
    else if ∀ row ∈ tableE2, w &&& row.mask ≠ row.pattern then decode w = .error (.reservedGraphicsSfuEncoding w)
    else (∃ row ∈ tableE2, w &&& row.mask = row.pattern ∧ w &&& row.odd ≠ 0) → decode w = .error (.oddPairSpecifier w)

/-! ### Registers and pairs (10_state.md) -/

/-- 10_state.md section 1, register 0 (the spec's decision D3, log 10): it reads zero, a pack to it leaves every
register as it was, and a pair result at specifier 0 reaches GR[1] alone, with the less significant half (D1, log 9; for
the packs' single destination D11, log 14). The draw that GR_PACK_5_5 takes is D5 (log 6). -/
def Obligations.RegisterZeroDiscardsResults : Prop :=
  ∀ (r1 r2 : Reg) (s : State), isEven r1 = true → isEven r2 = true →
    s.readGR 0 = 0 ∧
    exec (.grPack88 r2 0) s = .next { s with pc := s.pc + 4 } ∧
    exec (.grPack55 r2 0) s = .next { s with pc := s.pc + 4, draws := s.draws + 1 } ∧
    ∃ v : Word,
      exec (.grArith88 r1 r2 0) s = .next { s.writeGR 1 v with pc := s.pc + 4 } ∧
      ∀ h < 2, fieldVal v (16 * h) (16 * h + 15) = satVal (s.grR1.getLsbD 0) 16
        (fieldVal (s.readPair r1) (16 * h + 32) (16 * h + 47)) (fieldVal (s.readPair r2) (16 * h + 32) (16 * h + 47))

/-- 10_state.md section 1, pairs: the even register is the more significant half (D1, log 9), a pair reads as its two
registers, a pair write reaches those two registers only, and at specifier 0 the upper half is discarded (D3, log 10). -/
def Obligations.PairIsTwoRegisters : Prop :=
  ∀ (s : State) (r k : Reg) (v : Pair), isEven r = true →
    (s.readPair r).toNat = (s.readGR r).toNat * 2 ^ 32 + (s.readGR (r + 1)).toNat ∧
    (s.writePair r v).readGR k =
      (if k = 0 then 0
       else if k = r then BitVec.ofNat 32 (v.toNat / 2 ^ 32)
       else if k = r + 1 then BitVec.ofNat 32 v.toNat
       else s.readGR k) ∧
    (r ≠ 0 → (s.writePair r v).readPair r = v)

/-! ### Graphics arithmetic (40_arith.md) -/

/-- 00_scope.md section 5 and 40_arith.md section 5, the field operation at every width: `satadd` and `satsub` are the
exact sum and difference held to the unsigned range, with the laws the spec lists (the reading of `sat`: log 23). -/
def Obligations.SaturationLaws : Prop :=
  ∀ (w : Nat) (a b : BitVec w),
    (satOp false a b).toNat = (if a.toNat + b.toNat ≤ 2 ^ w - 1 then a.toNat + b.toNat else 2 ^ w - 1) ∧
    (satOp true a b).toNat = (if b.toNat ≤ a.toNat then a.toNat - b.toNat else 0) ∧
    satOp false a b = satOp false b a ∧
    satOp false a 0 = a ∧ satOp true a 0 = a ∧ satOp true a a = 0 ∧ satOp true 0 b = 0 ∧
    satOp false (BitVec.allOnes w) b = BitVec.allOnes w

/-- 40_arith.md section 2: GR_ARITH_5 writes to pair t, in each of the four halfwords, the saturated red, green and blue
5-bit fields of pair r1 op pair r2, each selected by its own bit of Gr_R1, and nothing is said of the bit above them.
Which field is which colour is the spec's decision D4 (log 11); that the fourth bit is free is D5 (log 6);
that the operands are r1 and r2 is the reading of a slip (C1, log 23). -/
def Obligations.GrArith5Result : Prop :=
  ∀ (r1 r2 t : Reg) (s : State), isEven r1 = true → isEven r2 = true → isEven t = true →
    ∃ res : Pair,
      (∀ h < 4,
        fieldVal res (16 * h + 1) (16 * h + 5) = satVal (s.grR1.getLsbD 2) 5
          (fieldVal (s.readPair r1) (16 * h + 1) (16 * h + 5)) (fieldVal (s.readPair r2) (16 * h + 1) (16 * h + 5)) ∧
        fieldVal res (16 * h + 6) (16 * h + 10) = satVal (s.grR1.getLsbD 1) 5
          (fieldVal (s.readPair r1) (16 * h + 6) (16 * h + 10)) (fieldVal (s.readPair r2) (16 * h + 6) (16 * h + 10)) ∧
        fieldVal res (16 * h + 11) (16 * h + 15) = satVal (s.grR1.getLsbD 0) 5
          (fieldVal (s.readPair r1) (16 * h + 11) (16 * h + 15)) (fieldVal (s.readPair r2) (16 * h + 11) (16 * h + 15))) ∧
      exec (.grArith5 r1 r2 t) s = .next { s.writePair t res with pc := s.pc + 4, draws := s.draws + 1 }

/-- 40_arith.md section 3: GR_ARITH_5_5 writes to pair t, in each of the two fullwords, the saturated red, green and blue
10-bit fields of pair r1 op pair r2, and nothing is said of the two bits above them (D4, log 11; D5, log 6). -/
def Obligations.GrArith55Result : Prop :=
  ∀ (r1 r2 t : Reg) (s : State), isEven r1 = true → isEven r2 = true → isEven t = true →
    ∃ res : Pair,
      (∀ k < 2,
        fieldVal res (32 * k + 2) (32 * k + 11) = satVal (s.grR1.getLsbD 2) 10
          (fieldVal (s.readPair r1) (32 * k + 2) (32 * k + 11)) (fieldVal (s.readPair r2) (32 * k + 2) (32 * k + 11)) ∧
        fieldVal res (32 * k + 12) (32 * k + 21) = satVal (s.grR1.getLsbD 1) 10
          (fieldVal (s.readPair r1) (32 * k + 12) (32 * k + 21)) (fieldVal (s.readPair r2) (32 * k + 12) (32 * k + 21)) ∧
        fieldVal res (32 * k + 22) (32 * k + 31) = satVal (s.grR1.getLsbD 0) 10
          (fieldVal (s.readPair r1) (32 * k + 22) (32 * k + 31)) (fieldVal (s.readPair r2) (32 * k + 22) (32 * k + 31))) ∧
      exec (.grArith55 r1 r2 t) s = .next { s.writePair t res with pc := s.pc + 4, draws := s.draws + 1 }

/-- 40_arith.md section 4: GR_ARITH_8_8: its row of Table E2; four saturated 16-bit fields of pair r1 op pair r2, all selected
by Gr_R1.B, written to pair t with nothing else changed but the pc. Which bits of the word hold r1, r2 and t is Table E1, R55's
passage from general knowledge (log 22, PRESUMED); pc + 4 is D12 (log 15), moved by exec itself (log 25). (What an odd
specifier does is GrArith88OddSpecifierIsRefused.) -/
def Obligations.GrArith88Result : Prop :=
  ∀ (r1 r2 t : Reg), isEven r1 = true → isEven r2 = true → isEven t = true →
    decode (BitVec.ofNat 32 (0x10002E40 + r2.toNat * 2 ^ 21 + r1.toNat * 2 ^ 16 + t.toNat)) = .ok (.grArith88 r1 r2 t) ∧
    ∀ s : State, ∃ res : Pair,
      (∀ h < 4, fieldVal res (16 * h) (16 * h + 15) = satVal (s.grR1.getLsbD 0) 16
        (fieldVal (s.readPair r1) (16 * h) (16 * h + 15)) (fieldVal (s.readPair r2) (16 * h) (16 * h + 15))) ∧
      exec (.grArith88 r1 r2 t) s = .next { s.writePair t res with pc := s.pc + 4 }

/-- 30_encoding.md section 3 for GR_ARITH_8_8: with an odd specifier the word is refused by the decoder, naming it, and the
term by exec, in every state (the spec's decision D2, DESIGN CHOICE: log 18 for the word, log 24 for the term; the
places of the fields in the word are R55's, log 22, PRESUMED). -/
def Obligations.GrArith88OddSpecifierIsRefused : Prop :=
  ∀ (r1 r2 t : Reg), ¬(isEven r1 = true ∧ isEven r2 = true ∧ isEven t = true) →
    decode (BitVec.ofNat 32 (0x10002E40 + r2.toNat * 2 ^ 21 + r1.toNat * 2 ^ 16 + t.toNat)) =
      .error (.oddPairSpecifier (BitVec.ofNat 32 (0x10002E40 + r2.toNat * 2 ^ 21 + r1.toNat * 2 ^ 16 + t.toNat))) ∧
    ∀ s : State, exec (.grArith88 r1 r2 t) s = .refused .oddPairSpecifier

/-- 40_arith.md section 5, unused bits, operand side, and 43_pack.md: operand bits that the layout calls unused (and the
fraction bits a pack drops) reach no specified result bit: two machines whose operands agree under the layout's mask get
results that agree under the mask of the specified bits, whatever they draw. (The masks' result side is D5, log 6.) The
single destination of a pack is D11 (log 14). -/
def Obligations.UnusedBitsDoNotReachResults : Prop :=
  ∀ (r1 r2 t : Reg) (s s' u u' : State), s.grR1 = s'.grR1 →
    (exec (.grArith5 r1 r2 t) s = .next u → exec (.grArith5 r1 r2 t) s' = .next u' →
      s.readPair r1 &&& 0x7FFF7FFF7FFF7FFF = s'.readPair r1 &&& 0x7FFF7FFF7FFF7FFF →
      s.readPair r2 &&& 0x7FFF7FFF7FFF7FFF = s'.readPair r2 &&& 0x7FFF7FFF7FFF7FFF →
      u.readPair t &&& 0x7FFF7FFF7FFF7FFF = u'.readPair t &&& 0x7FFF7FFF7FFF7FFF) ∧
    (exec (.grArith55 r1 r2 t) s = .next u → exec (.grArith55 r1 r2 t) s' = .next u' →
      s.readPair r1 &&& 0x3FFFFFFF3FFFFFFF = s'.readPair r1 &&& 0x3FFFFFFF3FFFFFFF →
      s.readPair r2 &&& 0x3FFFFFFF3FFFFFFF = s'.readPair r2 &&& 0x3FFFFFFF3FFFFFFF →
      u.readPair t &&& 0x3FFFFFFF3FFFFFFF = u'.readPair t &&& 0x3FFFFFFF3FFFFFFF) ∧
    (exec (.grPack55 r2 t) s = .next u → exec (.grPack55 r2 t) s' = .next u' →
      s.readPair r2 &&& 0x3E0F83E03E0F83E0 = s'.readPair r2 &&& 0x3E0F83E03E0F83E0 →
      u.readGR t &&& 0x7FFF7FFF = u'.readGR t &&& 0x7FFF7FFF) ∧
    (exec (.grPack88 r2 t) s = .next u → exec (.grPack88 r2 t) s' = .next u' →
      s.readPair r2 &&& 0xFF00FF00FF00FF00 = s'.readPair r2 &&& 0xFF00FF00FF00FF00 →
      u.readGR t = u'.readGR t)

/-- 10_state.md section 6 Table S1, the frame of the three GR_ARITH: only the two registers of pair t change; register 0,
the control registers and every byte of the text are as before (register 0: D3, log 10). -/
def Obligations.ArithFrame : Prop :=
  ∀ (i : Instr) (r1 r2 t : Reg) (s s' : State),
    i = .grArith5 r1 r2 t ∨ i = .grArith55 r1 r2 t ∨ i = .grArith88 r1 r2 t → exec i s = .next s' →
      s.sameControl s' ∧ ∀ k : Reg, (k = 0 ∨ k ≠ t ∧ k ≠ t + 1) → s'.readGR k = s.readGR k

/-! ### Clip (41_clip.md) -/

/-- 41_clip.md section 1: GR_CLIP_SUB. X and Y are subtracted apart, r1 minus r2 (90_conflicts.md C2, log 23); without a
borrow a half is the exact difference, with one it is what the open parameter says (D6, log 7); the carry, 1 where there
is no borrow (D7, log 12), enters SX and SY at the least significant end (D8, log 12). -/
def Obligations.GrClipSubResult : Prop :=
  ∀ (r1 r2 t : Reg) (s : State), isEven r1 = true → isEven r2 = true → isEven t = true →
    ∃ (res : Pair) (sx sy : BitVec 4),
      (∀ a : Nat, a = 0 ∨ a = 32 →
        fieldVal res a (a + 31) =
          (if fieldVal (s.readPair r2) a (a + 31) ≤ fieldVal (s.readPair r1) a (a + 31)
           then fieldVal (s.readPair r1) a (a + 31) - fieldVal (s.readPair r2) a (a + 31)
           else if Config.clipSubBorrowResult = .zero then 0
           else fieldVal (s.readPair r1) a (a + 31) + 2 ^ 32 - fieldVal (s.readPair r2) a (a + 31))) ∧
      sx.toNat = (2 * s.sx.toNat +
        if fieldVal (s.readPair r2) 0 31 ≤ fieldVal (s.readPair r1) 0 31 then 1 else 0) % 16 ∧
      sy.toNat = (2 * s.sy.toNat +
        if fieldVal (s.readPair r2) 32 63 ≤ fieldVal (s.readPair r1) 32 63 then 1 else 0) % 16 ∧
      exec (.grClipSub r1 r2 t) s = .next { s.writePair t res with sx := sx, sy := sy, pc := s.pc + 4 }

/-- 41_clip.md section 1, polarity of the carry (D7, log 12): it is bit 32 of the 33-bit sum of the minuend, the
complemented subtrahend and 1. -/
def Obligations.ClipCarryIsAdderCarry : Prop :=
  ∀ a b : Word, clipCarry a b = (BitVec.setWidth 33 a + BitVec.setWidth 33 (~~~b) + 1).getLsbD 32

/-- 41_clip.md section 1: four GR_CLIP_SUB leave in SX and SY their four carries, the first in bit 3 and the last in bit
0, whatever the registers held before (D7, D8, log 12). X is taken from the even register of a pair and Y from the odd
one: D1, log 9, DESIGN CHOICE and unsafe. That r2 is subtracted from r1 is the reading C2 (log 23). -/
def Obligations.FourClipSubsFillShiftRegisters : Prop :=
  ∀ (a b t : Fin 4 → Reg) (s0 s1 s2 s3 s4 : State),
    exec (.grClipSub (a 0) (b 0) (t 0)) s0 = .next s1 → exec (.grClipSub (a 1) (b 1) (t 1)) s1 = .next s2 →
    exec (.grClipSub (a 2) (b 2) (t 2)) s2 = .next s3 → exec (.grClipSub (a 3) (b 3) (t 3)) s3 = .next s4 →
      s4.sx.toNat =
        8 * (if (s0.readGR (b 0)).toNat ≤ (s0.readGR (a 0)).toNat then 1 else 0) +
        4 * (if (s1.readGR (b 1)).toNat ≤ (s1.readGR (a 1)).toNat then 1 else 0) +
        2 * (if (s2.readGR (b 2)).toNat ≤ (s2.readGR (a 2)).toNat then 1 else 0) +
        (if (s3.readGR (b 3)).toNat ≤ (s3.readGR (a 3)).toNat then 1 else 0) ∧
      s4.sy.toNat =
        8 * (if (s0.readGR (b 0 + 1)).toNat ≤ (s0.readGR (a 0 + 1)).toNat then 1 else 0) +
        4 * (if (s1.readGR (b 1 + 1)).toNat ≤ (s1.readGR (a 1 + 1)).toNat then 1 else 0) +
        2 * (if (s2.readGR (b 2 + 1)).toNat ≤ (s2.readGR (a 2 + 1)).toNat then 1 else 0) +
        (if (s3.readGR (b 3 + 1)).toNat ≤ (s3.readGR (a 3 + 1)).toNat then 1 else 0)

/-- 10_state.md section 6 Table S1, the frame of GR_CLIP_SUB: beside SX, SY and the pc only the two registers of pair t
change. That register 0 is as before even where t = 0 is the spec's decision D3 (log 10, DESIGN CHOICE, unsafe). -/
def Obligations.ClipSubFrame : Prop :=
  ∀ (r1 r2 t : Reg) (s s' : State), exec (.grClipSub r1 r2 t) s = .next s' →
    s'.grR1 = s.grR1 ∧ s'.pswN = s.pswN ∧ (∀ a, s'.readByte a = s.readByte a) ∧
    ∀ k : Reg, (k = 0 ∨ k ≠ t ∧ k ≠ t + 1) → s'.readGR k = s.readGR k

/-- 41_clip.md section 2: GR_CLIP_TEST sets PSW.N to 0 where `ClipPred(SX, SY)` holds and to 1 where not, and changes
nothing else but the pc (that SX and SY are kept is D10, log 13; `ClipPred` is open, D9, log 8). -/
def Obligations.GrClipTestResult : Prop :=
  ∀ s : State, ∃ n : Bool, (n = true ↔ Config.clipPred s.sx s.sy = false) ∧
    exec .grClipTest s = .next { s with pswN := n, pc := s.pc + 4 }

/-- 41_clip.md section 2 with 10_state.md section 5: over two steps, the word after a GR_CLIP_TEST is executed where
`ClipPred(SX, SY)` holds and otherwise passed over, whatever word it is (nullification is D13, log 16; byte order D14,
log 17; that SX and SY are kept D10, log 13). The predicate is D9 (log 8); the refusal of a word that does not decode is
D2 and D16 (log 18). -/
def Obligations.ClipTestDecidesTheNextInstruction : Prop :=
  ∀ (s : State) (w : Word), s.pc.toNat % 4 = 0 → s.pc.toNat + 8 ≤ 0xFFFFFFFC → s.pswN = false →
    s.textAt s.pc.toNat 0x10003E60 → s.textAt (s.pc.toNat + 4) w →
      ∃ u : State, step s = .next u ∧
        (Config.clipPred s.sx s.sy = true →
          (∀ i : Instr, decode w = .ok i → step u = exec i { s with pc := s.pc + 4 }) ∧
          (∀ e : DecodeError, decode w = .error e → step u = .refused (.undecodable e))) ∧
        (Config.clipPred s.sx s.sy = false → step u = .next { s with pc := s.pc + 8 })

/-! ### GR_MTCL (42_mtcl.md) -/

/-- 42_mtcl.md: GR_MTCL: its row of Table E2, any r2; Gr_R1 takes the three least significant bits of GR[r2], source bits 29,
30 and 31 as R, G and B; nothing else changes but the pc. That r2 = 0 loads 0 is D3 (log 10, DESIGN CHOICE); the slice 29:31 is
the reading of a misprint (C5, log 23, DEDUCED); the place of r2 in the word is R55's (log 22, PRESUMED). -/
def Obligations.GrMtclResult : Prop :=
  ∀ (r2 : Reg) (s : State),
    decode (BitVec.ofNat 32 (0x10004640 + r2.toNat * 2 ^ 21)) = .ok (.grMtcl r2) ∧
    ∃ g : BitVec 3,
      exec (.grMtcl r2) s = .next { s with grR1 := g, pc := s.pc + 4 } ∧
      g.toNat = (s.readGR r2).toNat % 8 ∧
      selectBit g .red = decide (fieldVal (s.readGR r2) 29 29 = 1) ∧
      selectBit g .green = decide (fieldVal (s.readGR r2) 30 30 = 1) ∧
      selectBit g .blue = decide (fieldVal (s.readGR r2) 31 31 = 1) ∧
      (r2 = 0 → g = 0)

/-- 10_state.md section 6 Table S1, the frame of GR_MTCL and of GR_CLIP_TEST: no general register and no byte of the text
changes, SX and SY are kept (for the test: D10, log 13), the move keeps PSW.N and the test keeps Gr_R1. -/
def Obligations.MtclAndClipTestFrame : Prop :=
  ∀ (i : Instr) (r2 : Reg) (s s' : State), i = .grMtcl r2 ∨ i = .grClipTest → exec i s = .next s' →
    (∀ k : Reg, s'.readGR k = s.readGR k) ∧ (∀ a, s'.readByte a = s.readByte a) ∧
    s'.sx = s.sx ∧ s'.sy = s.sy ∧
    (i = .grMtcl r2 → s'.pswN = s.pswN) ∧ (i = .grClipTest → s'.grR1 = s.grR1)

/-! ### Pack (43_pack.md) -/

/-- 43_pack.md section 1: GR_PACK_5_5 writes to the single register t (D11, log 14) the integer parts, field / 32, of the six
10-bit fields of pair r2; nothing is said of result bits 0 and 16 (D5, log 6). -/
def Obligations.GrPack55Result : Prop :=
  ∀ (r2 t : Reg) (s : State), isEven r2 = true →
    ∃ res : Word,
      (∀ k < 2,
        fieldVal res (16 * k + 1) (16 * k + 5) = fieldVal (s.readPair r2) (32 * k + 2) (32 * k + 11) / 32 ∧
        fieldVal res (16 * k + 6) (16 * k + 10) = fieldVal (s.readPair r2) (32 * k + 12) (32 * k + 21) / 32 ∧
        fieldVal res (16 * k + 11) (16 * k + 15) = fieldVal (s.readPair r2) (32 * k + 22) (32 * k + 31) / 32) ∧
      exec (.grPack55 r2 t) s = .next { s.writeGR t res with pc := s.pc + 4, draws := s.draws + 1 }

/-- 43_pack.md section 2: GR_PACK_8_8 writes to the single register t (D11, log 14) the integer bytes, field / 256, of the
four 16-bit fields of pair r2, and changes nothing else but the pc. -/
def Obligations.GrPack88Result : Prop :=
  ∀ (r2 t : Reg) (s : State), isEven r2 = true →
    ∃ res : Word,
      (∀ k < 4, fieldVal res (8 * k) (8 * k + 7) = fieldVal (s.readPair r2) (16 * k) (16 * k + 15) / 256) ∧
      exec (.grPack88 r2 t) s = .next { s.writeGR t res with pc := s.pc + 4 }

/-- 43_pack.md section 3: two packs fill the two halves of a pair, the second without disturbing the first
(D1, log 9; D11, log 14); register 0 discards the first (D3, log 10). -/
def Obligations.TwoPacksFillAPair : Prop :=
  ∀ (a b t : Reg) (s s' s'' : State), isEven t = true →
    exec (.grPack88 a t) s = .next s' → exec (.grPack88 b (t + 1)) s' = .next s'' →
      ∀ k < 4,
        fieldVal (s''.readPair t) (8 * k) (8 * k + 7) =
          (if t = 0 then 0 else fieldVal (s.readPair a) (16 * k) (16 * k + 15) / 256) ∧
        fieldVal (s''.readPair t) (32 + 8 * k) (32 + 8 * k + 7) = fieldVal (s'.readPair b) (16 * k) (16 * k + 15) / 256

/-- 10_state.md section 6 Table S1, the frame of the two GR_PACK: only register t changes (D11, log 14). That register 0
is as before even where t = 0 is the spec's decision D3 (log 10, DESIGN CHOICE, unsafe). -/
def Obligations.PackFrame : Prop :=
  ∀ (i : Instr) (r2 t : Reg) (s s' : State), i = .grPack55 r2 t ∨ i = .grPack88 r2 t → exec i s = .next s' →
    s.sameControl s' ∧ ∀ k : Reg, (k = 0 ∨ k ≠ t) → s'.readGR k = s.readGR k

/-! ### All instructions -/

/-- R130: no instruction raises an exception: in every state and for every operand value no instruction answers a fault, and
one that a word of the table decodes to answers a next state. -/
def Obligations.NoInstructionRaisesAnException : Prop :=
  ∀ (i : Instr) (s : State), (∀ f : Fault, exec i s ≠ .fault f) ∧
    ((∃ w : Word, decode w = .ok i) → ∃ s' : State, exec i s = .next s')

/-- 10_state.md section 1 and 30_encoding.md section 3: given an odd specifier where a pair is named, which no word decodes
to, a meaning refuses (the spec's decision D2, log 24). -/
def Obligations.OddSpecifierIsRefused : Prop :=
  ∀ (i : Instr) (s : State), i.wellFormed = false → exec i s = .refused .oddPairSpecifier

/-- 10_state.md section 7: Gr_R1, SX and SY are seen only through the results of GR_ARITH and through GR_CLIP_TEST: changing SX
and SY changes no other instruction's registers, PSW.N, Gr_R1, pc or text, and changing Gr_R1 changes nothing that an
instruction other than GR_ARITH leaves. -/
def Obligations.ControlRegistersAreSeenByTheirReadersOnly : Prop :=
  ∀ (i : Instr) (s u u' : State) (g : BitVec 3) (x y : BitVec 4),
    (i ≠ .grClipTest → exec i s = .next u → exec i { s with sx := x, sy := y } = .next u' →
      u'.regs = u.regs ∧ u'.pswN = u.pswN ∧ u'.grR1 = u.grR1 ∧ u'.pc = u.pc ∧ u'.mem = u.mem) ∧
    ((∀ r1 r2 t : Reg, i ≠ .grArith5 r1 r2 t ∧ i ≠ .grArith55 r1 r2 t ∧ i ≠ .grArith88 r1 r2 t) →
      exec i s = .next u → exec i { s with grR1 := g } = .next u' →
      u'.regs = u.regs ∧ u'.pswN = u.pswN ∧ u'.sx = u.sx ∧ u'.sy = u.sy ∧ u'.pc = u.pc ∧ u'.mem = u.mem)

/-! ### The step (10_state.md section 5) -/

/-- 10_state.md section 5: where the bytes at the pc are a word that decodes to i and PSW.N is 0, the step is exec of i,
which also moves the pc (byte order: D14, log 17). The pc that can be fetched at is D12 and D15 (log 15), the test of
PSW.N D13 (log 16), the text in State log 4. -/
def Obligations.StepRunsTheDecodedInstruction : Prop :=
  ∀ (s : State) (w : Word) (i : Instr), s.pc.toNat % 4 = 0 → s.pc ≠ 0xFFFFFFFC → s.pswN = false →
    s.textAt s.pc.toNat w → decode w = .ok i → step s = exec i s

/-- 10_state.md section 5: where PSW.N is 1, the word at the pc, whatever it is, is passed over: PSW.N is cleared, the
pc moves by 4 and nothing else changes (D13, log 16). The pc is D12 and D15 (log 15), the text log 4, the byte order D14
(log 17). -/
def Obligations.SkippedWordHasNoEffect : Prop :=
  ∀ (s : State) (w : Word), s.pc.toNat % 4 = 0 → s.pc ≠ 0xFFFFFFFC → s.pswN = true →
    s.textAt s.pc.toNat w → step s = .next { s with pswN := false, pc := s.pc + 4 }

/-- 10_state.md section 5, 20_memory.md sections 1 and 3, 30_encoding.md section 4: where a step stops, in order of
precedence: a misaligned pc, the last word of the address space, a byte of the text missing at the pc, and, if the word
is not skipped, a word the decoder refuses (the spec's decisions D12, D15, D16, D24; logs 4, 15, 18). An odd specifier
is D2 (log 18), skipping D13 (log 16), the byte order D14 (log 17). -/
def Obligations.StepStopsByName : Prop :=
  ∀ s : State,
    (s.pc.toNat % 4 ≠ 0 → step s = .refused .misalignedPc) ∧
    (s.pc.toNat % 4 = 0 → s.pc = 0xFFFFFFFC → step s = .refused .pcWrap) ∧
    (s.pc.toNat % 4 = 0 → s.pc ≠ 0xFFFFFFFC →
      ((∃ k < 4, s.readByte (s.pc.toNat + k) = none) → step s = .refused .noText) ∧
      (∀ (w : Word) (e : DecodeError), s.textAt s.pc.toNat w → s.pswN = false → decode w = .error e →
        step s = .refused (.undecodable e)))

/-- 10_state.md section 5: a step answers a next state exactly where the pc can be fetched at, there is text there, and
the word is skipped or decodes (D12, D13, D15, D24; logs 4, 15, 16). What decodes is D2 and D16 (log 18), the byte order
D14 (log 17). -/
def Obligations.StepCompletesExactlyWhere : Prop :=
  ∀ s : State, (∃ s' : State, step s = .next s') ↔
    s.pc.toNat % 4 = 0 ∧ s.pc ≠ 0xFFFFFFFC ∧
      ∃ w : Word, s.textAt s.pc.toNat w ∧ (s.pswN = true ∨ ∃ i : Instr, decode w = .ok i)

/-- 10_state.md section 5: every step, executed or skipped, moves the pc by exactly 4 and never wraps it (D12, log 15).
That the last word is refused, so that nothing wraps, is D15 (log 15). -/
def Obligations.EveryStepMovesThePcByFour : Prop :=
  ∀ s s' : State, step s = .next s' → s'.pc.toNat = s.pc.toNat + 4

/-- 10_state.md section 6 Table S1, over whole steps: Gr_R1 changes only by a GR_MTCL at the pc that is not skipped
(byte order D14, log 17; the slice of the move C5, log 23; skipping D13, log 16). The places of the fields in the word
are R55's (log 22, PRESUMED). -/
def Obligations.OnlyMtclChangesGrR1 : Prop :=
  ∀ s s' : State, step s = .next s' → s'.grR1 ≠ s.grR1 →
    s.pswN = false ∧ ∃ r2 : Reg, s.textAt s.pc.toNat (encode (.grMtcl r2)) ∧ s'.grR1.toNat = (s.readGR r2).toNat % 8

/-- 10_state.md section 6 Table S1, over whole steps: SX or SY changes only by a GR_CLIP_SUB at the pc that is not
skipped (that GR_CLIP_TEST keeps them is D10, log 13; byte order D14, log 17; skipping D13, log 16). The places of the
fields in the word are R55's (log 22, PRESUMED). -/
def Obligations.OnlyClipSubChangesShiftRegisters : Prop :=
  ∀ s s' : State, step s = .next s' → (s'.sx ≠ s.sx ∨ s'.sy ≠ s.sy) →
    s.pswN = false ∧ ∃ r1 r2 t : Reg, s.textAt s.pc.toNat (encode (.grClipSub r1 r2 t))

/-- 10_state.md sections 4 and 5: after a step PSW.N is 1 exactly where the step executed a GR_CLIP_TEST whose predicate
does not hold; so one instruction at most is skipped at a time (D13, log 16; byte order D14, log 17; the predicate D9,
log 8). The places of the fields in the word are R55's (log 22, PRESUMED). -/
def Obligations.OnlyClipTestSetsPswN : Prop :=
  ∀ s s' : State, step s = .next s' →
    (s'.pswN = true ↔ s.pswN = false ∧ s.textAt s.pc.toNat 0x10003E60 ∧ Config.clipPred s.sx s.sy = false)

/-- The invariant holds at the model's reset state (its values are the model's choice: logs 1, 2, 4). -/
def Obligations.ResetMeetsTheInvariant : Prop := State.reset.Inv

/-- Every step keeps the invariant: the text in canonical form, the pc a multiple of 4 (10_state.md section 5, D12, log
15), register 0's cell zero (D3, log 10). The text in State and its canonical form are log 4. -/
def Obligations.StepKeepsTheInvariant : Prop :=
  ∀ s s' : State, s.Inv → step s = .next s' → s'.Inv

/-- 20_memory.md sections 1 and 7 with 70_reset_and_hazards.md section 4: a run of k steps moves the pc by exactly 4k,
leaves the text as it was, and keeps the invariant, from every state (D12, D25). The pc is D12 and D15 (log 15), the
invariant logs 4, 10 and 15. -/
def Obligations.RunAdvancesAndKeepsTheText : Prop :=
  ∀ (k : Nat) (s s' : State), Host.Core.run core k s = .next s' →
    s'.pc.toNat = s.pc.toNat + 4 * k ∧ s'.mem = s.mem ∧ (s.Inv → s'.Inv)

/-- What the model's reset leaves, all of it the model's choice (logs 1, 2, 4, 5): every register reads 0, Gr_R1, SX, SY and
PSW.N are 0, the pc is 0, no text is loaded, and so the first step finds none. -/
def Obligations.ResetLeavesZeroAndNoText : Prop :=
  (∀ r : Reg, State.reset.readGR r = 0) ∧ State.reset.grR1 = 0 ∧ State.reset.sx = 0 ∧ State.reset.sy = 0 ∧
  State.reset.pswN = false ∧ State.reset.pc = 0 ∧ (∀ a, State.reset.readByte a = none) ∧
  step State.reset = .refused .noText

/-- The load of one word at the pc (log 5): from any state whose pc the machine can fetch at, the next step runs the
loaded instruction; the load clears PSW.N and puts the word's four bytes at the pc, keeps the canonical form of the
text, and changes nothing else: no other byte, no register, no control register, no draw. The byte order is D14 (log
17), the text in State log 4, the pc D12 and D15 (log 15). -/
def Obligations.LoadedWordRunsNext : Prop :=
  ∀ (s : State) (w : Word) (i : Instr), s.pc.toNat % 4 = 0 → s.pc ≠ 0xFFFFFFFC → decode w = .ok i →
    step (s.withFetchWord 32 w.toNat) = exec i (s.withFetchWord 32 w.toNat) ∧
    (s.withFetchWord 32 w.toNat).textAt s.pc.toNat w ∧
    (∀ a, (a < s.pc.toNat ∨ s.pc.toNat + 4 ≤ a) → (s.withFetchWord 32 w.toNat).readByte a = s.readByte a) ∧
    (s.mem.wf = true → (s.withFetchWord 32 w.toNat).mem.wf = true) ∧
    (s.withFetchWord 32 w.toNat).pswN = false ∧
    (s.withFetchWord 32 w.toNat).regs = s.regs ∧ (s.withFetchWord 32 w.toNat).grR1 = s.grR1 ∧
    (s.withFetchWord 32 w.toNat).sx = s.sx ∧ (s.withFetchWord 32 w.toNat).sy = s.sy ∧
    (s.withFetchWord 32 w.toNat).pc = s.pc ∧ (s.withFetchWord 32 w.toNat).draws = s.draws

/-! ### Launch and the end of a run (70_reset_and_hazards.md sections 4 and 6) -/

/-- 70_reset_and_hazards.md sections 4 and 6: a launch at an aligned base whose text ends by 0xFFFFFFFC, with each
register given at most once and nothing done by the host, meets every launch premise; the cells that the precondition
does not give keep what they held, and the launch state meets the invariant. The launch is the spec's decision D25 (log
27); "unwritten" is log 3. The premises about the host are log 19, the byte order D14 (log 17), register 0 D3 (log 10),
the invariant logs 4, 10 and 15. -/
def Obligations.LaunchMeetsThePremises : Prop :=
  ∀ (l : Launch) (s : State), l.base.toNat % 4 = 0 → l.base.toNat + 4 * l.text.length ≤ 0xFFFFFFFC →
    (l.pre.regs.map Prod.fst).Nodup → l.host = [] →
    ∃ u : State, LaunchPremises l (fun _ _ => True) (l.load s) u ∧
      (∀ r : Reg, r ∉ l.pre.regs.map Prod.fst → u.readGR r = s.readGR r) ∧
      (l.pre.grR1 = none → u.grR1 = s.grR1) ∧
      u.sx &&& ~~~l.pre.sxGiven = s.sx &&& ~~~l.pre.sxGiven ∧ u.sy &&& ~~~l.pre.syGiven = s.sy &&& ~~~l.pre.syGiven ∧
      (s.regs[0] = 0 → u.Inv)

/-- 70_reset_and_hazards.md sections 4 and 6: where a run does not start, and under which name: an event of the host that
LP_unit or LP_alone excludes, a base that is not a multiple of 4, an end beyond 0xFFFFFFFC (D20, D21, D25, D27; logs 19, 27). -/
def Obligations.LaunchStopsByName : Prop :=
  ∀ (l : Launch) (s : State),
    (∀ (e : HostEvent) (rest : List HostEvent), l.host = e :: rest → l.run s = .refused (.outsidePremises e)) ∧
    (l.host = [] → l.base.toNat % 4 ≠ 0 → l.run s = .refused .misalignedPc) ∧
    (l.host = [] → l.base.toNat % 4 = 0 → 0xFFFFFFFC < l.base.toNat + 4 * l.text.length → l.run s = .refused .pcWrap)

/-- 70_reset_and_hazards.md section 4: under the launch premises the run of a program of L words is exactly L steps from
the launch state, never fewer, and where it completes the pc is B + 4L and the text is as launched (D25; log 27). That
each step moves the pc by 4 is D12 (log 15); the premises about the host are log 19. That a read of a cell the
precondition does not give ends no run is the model's choice (log 3, DESIGN CHOICE, unsafe), where the spec's own model
faults (R33, D26). -/
def Obligations.ProgramRunIsOneStepPerWord : Prop :=
  ∀ (l : Launch) (named : (BitVec 4 → BitVec 4 → Bool) → ClipSubBorrow → Prop) (s u : State),
    LaunchPremises l named (l.load s) u →
      l.run s = (Host.Core.run core l.text.length u : Host.Outcome State Fault Refusal) ∧
      ∀ s' : State, l.run s = .next s' → s'.pc.toNat = l.base.toNat + 4 * l.text.length ∧ s'.mem = u.mem

/-- 70_reset_and_hazards.md section 4: under the launch premises a program whose every word decodes runs to its end,
whatever the open parameters are and whichever of its words are skipped (D25; log 27). Skipping is D13 (log 16), what
decodes D2 and D16 (log 18), the pc D12 (log 15); the premises about the host are log 19. That the run also goes on
where an instruction reads a cell the precondition does not give is the model's choice (log 3, DESIGN CHOICE, unsafe):
the spec's own model ends such a run in a fault (R33, R157 LP_state, D26). -/
def Obligations.DecodableProgramRunsToItsEnd : Prop :=
  ∀ (l : Launch) (named : (BitVec 4 → BitVec 4 → Bool) → ClipSubBorrow → Prop) (s u : State),
    LaunchPremises l named (l.load s) u → (∀ w ∈ l.text, ∃ i : Instr, decode w = .ok i) →
      ∃ s' : State, l.run s = .next s' ∧ s'.pc.toNat = l.base.toNat + 4 * l.text.length

/-! ### Fields fixed to zero (30_encoding.md) -/

/-- R64: GR_CLIP_TEST has r2 = r1 = t = 0, GR_MTCL has r1 = t = 0, the two packs have r1 = 0; and fields of the family with a
nonzero value there match no row, so they are reserved. (About fields, whatever their places in the word.) -/
def Obligations.FixedZeroFields : Prop :=
  ∀ f : Fields,
    (rowOf f = some .grClipTest → f.r2 = 0 ∧ f.r1 = 0 ∧ f.t = 0) ∧
    (∀ r2 : Reg, rowOf f = some (.grMtcl r2) → f.r1 = 0 ∧ f.t = 0) ∧
    (∀ r2 t : Reg, rowOf f = some (.grPack55 r2 t) ∨ rowOf f = some (.grPack88 r2 t) → f.r1 = 0) ∧
    ((f.sub = 7 ∧ ¬(f.r2 = 0 ∧ f.r1 = 0 ∧ f.t = 0)) ∨ (f.sub = 8 ∧ ¬(f.r1 = 0 ∧ f.t = 0)) ∨
        ((f.sub = 3 ∨ f.sub = 6) ∧ f.r1 ≠ 0) →
      rowOf f = none)
end

