-- ==== Sys2Proof/Laws/Decode.lean ====
section
/-!
SUPPORT. The fields of a word and the word of its fields, and the conditions of the decoder by cases.
-/

namespace Sys2Proof

/-- The fields of the word built from fields are those fields. -/
theorem fieldsOf_wordOf (f : Fields) : fieldsOf (wordOf f) = f := by
  obtain ⟨op, r2, r1, sub, sel, sfu, n, t⟩ := f
  simp only [fieldsOf, wordOf, Fields.mk.injEq]
  refine ⟨?_, ?_, ?_, ?_, ?_, ?_, ?_, ?_⟩ <;>
    (apply BitVec.eq_of_getLsbD_eq
     intro i hi
     simp only [BitVec.getLsbD_extractLsb', BitVec.getLsbD_append]
     interval_cases i <;> rfl)

/-- The word built from the fields of a word is that word. -/
theorem wordOf_fieldsOf (w : Word) : wordOf (fieldsOf w) = w := by
  apply BitVec.eq_of_getLsbD_eq
  intro i hi
  simp only [fieldsOf, wordOf, BitVec.getLsbD_extractLsb', BitVec.getLsbD_append]
  interval_cases i <;> rfl

/-- A mask test on a word is the mask tests on its fields (Table E2 read through Table E1). -/
theorem and_wordOf_eq_iff (w : Word) (m p : Fields) :
    w &&& wordOf m = wordOf p ↔
      (fieldsOf w).op &&& m.op = p.op ∧ (fieldsOf w).r2 &&& m.r2 = p.r2 ∧ (fieldsOf w).r1 &&& m.r1 = p.r1 ∧
      (fieldsOf w).sub &&& m.sub = p.sub ∧ (fieldsOf w).sel &&& m.sel = p.sel ∧ (fieldsOf w).sfu &&& m.sfu = p.sfu ∧
      (fieldsOf w).n &&& m.n = p.n ∧ (fieldsOf w).t &&& m.t = p.t := by
  have key : fieldsOf (w &&& wordOf m) =
      { op := (fieldsOf w).op &&& (fieldsOf (wordOf m)).op, r2 := (fieldsOf w).r2 &&& (fieldsOf (wordOf m)).r2,
        r1 := (fieldsOf w).r1 &&& (fieldsOf (wordOf m)).r1, sub := (fieldsOf w).sub &&& (fieldsOf (wordOf m)).sub,
        sel := (fieldsOf w).sel &&& (fieldsOf (wordOf m)).sel, sfu := (fieldsOf w).sfu &&& (fieldsOf (wordOf m)).sfu,
        n := (fieldsOf w).n &&& (fieldsOf (wordOf m)).n, t := (fieldsOf w).t &&& (fieldsOf (wordOf m)).t } := by
    simp only [fieldsOf, BitVec.extractLsb'_and]
  rw [fieldsOf_wordOf] at key
  constructor
  · intro h
    rw [h, fieldsOf_wordOf] at key
    simpa only [Fields.ext_iff, eq_comm] using key
  · intro h
    rw [← wordOf_fieldsOf (w &&& wordOf m), key]
    congr 1
    simpa only [Fields.ext_iff] using h

/-- Every instruction's fields belong to the family. -/
theorem inFamily_encodeFields (i : Instr) : inFamily (encodeFields i) = true := by cases i <;> rfl

/-- Every instruction's fields match its row. -/
theorem rowOf_encodeFields (i : Instr) : rowOf (encodeFields i) = some i := by cases i <;> rfl

theorem eq_of_toNat_eq_lit {w k : Nat} {b : BitVec w} (h : b.toNat = k) : b = BitVec.ofNat w k := by
  subst h; simp

/-- The row matched by fields of the family has those fields. -/
theorem encodeFields_rowOf {f : Fields} {i : Instr} (hf : inFamily f = true) (h : rowOf f = some i) :
    encodeFields i = f := by
  obtain ⟨op, r2, r1, sub, sel, sfu, n, t⟩ := f
  simp only [inFamily, Bool.and_eq_true, beq_iff_eq] at hf
  obtain ⟨⟨rfl, rfl⟩, rfl⟩ := hf
  unfold rowOf at h
  split at h
  all_goals first
    | cases h
    | (rename_i hs
       obtain rfl := eq_of_toNat_eq_lit hs
       split_ifs at h with hn
       injection h with h
       subst h
       simp_all [encodeFields])

/-- The decoder accepts a word exactly where it is of the family, matches a row, and the specifiers are even. -/
theorem decode_eq_ok_iff (w : Word) (i : Instr) :
    decode w = .ok i ↔
      inFamily (fieldsOf w) = true ∧ rowOf (fieldsOf w) = some i ∧ i.wellFormed = true := by
  unfold decode
  constructor
  · intro h
    split_ifs at h with hf
    split at h
    · rename_i j hj
      split_ifs at h with hw
      injection h with h
      subst h
      exact ⟨hf, hj, hw⟩
    · cases h
  · rintro ⟨hf, hr, hw⟩
    simp [hf, hr, hw]

end Sys2Proof
end

