-- ==== Sys2Proof/Laws/Flags.lean ====
section
/-!
SUPPORT. The carries, the outcode shift registers and the clipped difference as numbers.
-/

namespace Sys2Proof.Machine

/-- The carry of a clip subtraction is 1 exactly where there is no borrow (41_clip.md R101). -/
theorem clipCarry_eq (a b : Word) : clipCarry a b = decide (b.toNat ≤ a.toNat) := rfl

/-- A shift register doubles, takes the carry, and forgets its top bit (41_clip.md R101). -/
theorem toNat_shiftIn (r : BitVec 4) (c : Bool) : (shiftIn r c).toNat = (2 * r.toNat + if c then 1 else 0) % 16 := by
  revert r c; decide

/-- Four shifts replace the whole content (41_clip.md R101). -/
theorem toNat_shiftIn_four (r : BitVec 4) (c1 c2 c3 c4 : Bool) :
    (shiftIn (shiftIn (shiftIn (shiftIn r c1) c2) c3) c4).toNat =
      8 * (if c1 then 1 else 0) + 4 * (if c2 then 1 else 0) + 2 * (if c3 then 1 else 0) + (if c4 then 1 else 0) := by
  revert r c1 c2 c3 c4; decide

/-- The difference as a number: exact without a borrow, what the open parameter says with one (41_clip.md R102). -/
theorem toNat_clipDiff (a b : Word) :
    (clipDiff a b).toNat =
      if b.toNat ≤ a.toNat then a.toNat - b.toNat
      else if Config.clipSubBorrowResult = .zero then 0
      else a.toNat + 2 ^ 32 - b.toNat := by
  have ha := a.isLt
  have hb := b.isLt
  unfold clipDiff
  split_ifs with h hc
  · rw [BitVec.toNat_sub]; omega
  · simp [hc]
  · cases hw : Config.clipSubBorrowResult
    · exact absurd hw hc
    · simp only [BitVec.toNat_sub]; omega

end Sys2Proof.Machine
end

