-- ==== Sys2Proof/Laws/Memory.lean ====
section
/-!
SUPPORT. The program text: a read after a write, the canonical form, and words as bytes.
-/

namespace Sys2Proof.Machine

/-- A byte written reads back, and every other address reads as before. -/
theorem Memory.read_write (m : Memory) (x y : Nat) (v : Byte) :
    (Memory.write m x v).read y = if y = x then some v else m.read y := by
  induction m with
  | nil => simp [Memory.write, Memory.read]
  | cons c m ih =>
    obtain ⟨a, b⟩ := c
    by_cases h1 : x < a
    · simp only [Memory.write, if_pos h1, Memory.read]
    · by_cases h2 : x = a
      · subst h2; simp only [Memory.write, h1, if_false, if_true, Memory.read]; split_ifs <;> rfl
      · simp only [Memory.write, if_neg h1, if_neg h2, Memory.read, ih]
        by_cases h : y = a
        · subst h; simp only [if_true, if_neg (Ne.symm h2)]
        · simp only [if_neg h]

/-- A write keeps the canonical form, from any lower bound. -/
theorem Memory.wfFrom_write (m : Memory) (lo x : Nat) (v : Byte) (hm : m.wfFrom lo = true) (hlo : lo ≤ x)
    (hx : x < 2 ^ 32) : (m.write x v).wfFrom lo = true := by
  induction m generalizing lo with
  | nil => simp [Memory.write, Memory.wfFrom, hlo]; omega
  | cons c m ih =>
    obtain ⟨a, b⟩ := c
    simp only [Memory.wfFrom, Bool.and_eq_true, decide_eq_true_eq] at hm
    unfold Memory.write
    split_ifs with h1 h2
    · simp only [Memory.wfFrom, Bool.and_eq_true, decide_eq_true_eq]
      exact ⟨⟨hlo, hx⟩, ⟨by omega, by omega⟩, hm.2⟩
    · subst h2
      simpa only [Memory.wfFrom, Bool.and_eq_true, decide_eq_true_eq] using hm
    · simp only [Memory.wfFrom, Bool.and_eq_true, decide_eq_true_eq]
      exact ⟨hm.1, ih _ hm.2 (by omega)⟩

/-- A write keeps the canonical form. -/
theorem Memory.wf_write (m : Memory) (x : Nat) (v : Byte) (hm : m.wf = true) (hx : x < 2 ^ 32) :
    (m.write x v).wf = true := Memory.wfFrom_write m 0 x v hm (Nat.zero_le x) hx

/-- A word's write keeps the canonical form. -/
theorem Memory.wf_writeWord (m : Memory) (a w : Word) (hm : m.wf = true) : (m.writeWord a w).wf = true := by
  unfold Memory.writeWord
  exact Memory.wf_write _ _ _ (Memory.wf_write _ _ _ (Memory.wf_write _ _ _
    (Memory.wf_write _ _ _ hm (BitVec.isLt _)) (BitVec.isLt _)) (BitVec.isLt _)) (BitVec.isLt _)

/-- The text of the reset state is in canonical form. -/
theorem State.reset_mem_wf : State.reset.mem.wf = true := rfl

/-- At an aligned address the four bytes of a word follow each other without wrapping. -/
theorem byteAddr_aligned (a : Word) (k : Nat) (ha : a.toNat % 4 = 0) (hk : k < 4) : byteAddr a k = a.toNat + k := by
  have := a.isLt
  simp only [byteAddr, BitVec.toNat_add, BitVec.toNat_ofNat]
  omega

/-- A word is its four bytes. -/
theorem wordOfBytes_byteOfWord (w : Word) :
    wordOfBytes (byteOfWord w 0) (byteOfWord w 1) (byteOfWord w 2) (byteOfWord w 3) = w := by
  simp only [wordOfBytes, byteOfWord, Machine.Params.insnBigEndian, if_true]
  apply BitVec.eq_of_getLsbD_eq
  intro i hi
  simp only [BitVec.getLsbD_append, BitVec.getLsbD_extractLsb']
  interval_cases i <;> rfl

/-- The byte of a word as a number, the most significant first (20_memory.md R42). -/
theorem byteOfWord_eq (w : Word) (k : Nat) :
    byteOfWord w k = BitVec.ofNat 8 (w.toNat / 2 ^ (8 * (3 - k))) := by
  simp only [byteOfWord, Machine.Params.insnBigEndian, if_true]
  apply BitVec.eq_of_toNat_eq
  simp [Nat.shiftRight_eq_div_pow]

/-- The four bytes of a word built from bytes. -/
theorem byteOfWord_wordOfBytes (b0 b1 b2 b3 : Byte) (k : Nat) (hk : k < 4) :
    byteOfWord (wordOfBytes b0 b1 b2 b3) k = [b0, b1, b2, b3][k] := by
  simp only [wordOfBytes, byteOfWord, Machine.Params.insnBigEndian, if_true]
  apply BitVec.eq_of_getLsbD_eq
  intro i hi
  simp only [BitVec.getLsbD_extractLsb', BitVec.getLsbD_append]
  interval_cases k <;> interval_cases i <;> rfl

/-- A word loaded at an aligned address reads back. -/
theorem Memory.readWord_writeWord (m : Memory) (a w : Word) (ha : a.toNat % 4 = 0) :
    (m.writeWord a w).readWord a = some w := by
  simp [Memory.readWord, Memory.writeWord, Memory.read_write, byteAddr_aligned a _ ha, wordOfBytes_byteOfWord]

/-- A word loaded at an aligned address changes no other byte. -/
theorem Memory.read_writeWord_other (m : Memory) (a w : Word) (x : Nat) (ha : a.toNat % 4 = 0)
    (hx : x < a.toNat ∨ a.toNat + 4 ≤ x) : (m.writeWord a w).read x = m.read x := by
  simp only [Memory.writeWord, Memory.read_write, byteAddr_aligned a _ ha (by omega : 0 < 4),
    byteAddr_aligned a _ ha (by omega : 1 < 4), byteAddr_aligned a _ ha (by omega : 2 < 4),
    byteAddr_aligned a _ ha (by omega : 3 < 4)]
  rw [if_neg, if_neg, if_neg, if_neg] <;> omega

/-- `Text(a)` at an aligned address is `w` exactly where the four bytes there are the bytes of `w`. -/
theorem Memory.readWord_eq_some_iff (m : Memory) (a w : Word) (ha : a.toNat % 4 = 0) :
    m.readWord a = some w ↔ ∀ k < 4, m.read (a.toNat + k) = some (byteOfWord w k) := by
  simp only [Memory.readWord, byteAddr_aligned a _ ha (by omega : 0 < 4),
    byteAddr_aligned a _ ha (by omega : 1 < 4), byteAddr_aligned a _ ha (by omega : 2 < 4),
    byteAddr_aligned a _ ha (by omega : 3 < 4)]
  constructor
  · intro h k hk
    split at h
    · rename_i b0 b1 b2 b3 h0 h1 h2 h3
      injection h with h; subst h
      rw [byteOfWord_wordOfBytes _ _ _ _ k hk]
      interval_cases k <;> simpa
    · cases h
  · intro h
    rw [h 0 (by omega), h 1 (by omega), h 2 (by omega), h 3 (by omega)]
    simp [wordOfBytes_byteOfWord]

end Sys2Proof.Machine
end

