-- ==== Sys2Proof/Laws/Params.lean ====
section
/-!
SUPPORT. What the chosen value of ODD_PAIR_SPECIFIER makes of a specifier and of well-formedness.
-/

namespace Sys2Proof.Machine

/-- A specifier names a pair exactly where it is even, and then its own (10_state.md R22, D2). -/
theorem pairBase_eq (r : Reg) : pairBase r = if isEven r = true then some r else none := by
  unfold pairBase; split <;> rfl

@[simp] theorem namesPair_eq (r : Reg) : namesPair r = isEven r := by
  rw [namesPair, pairBase_eq]; cases isEven r <;> rfl

/-- A pack takes any destination register (43_pack.md R122, D11). -/
@[simp] theorem packDestOk_eq (t : Reg) : packDestOk t = true := rfl

end Sys2Proof.Machine
end

