-- ==== Sys2Proof/Laws/State.lean ====
section
/-!
SUPPORT. What each update of the state leaves in each field: one lemma per field per update.
-/

namespace Sys2Proof.Machine

@[simp] theorem State.takeDraw_regs (s : State) : s.takeDraw.regs = s.regs := rfl
@[simp] theorem State.takeDraw_grR1 (s : State) : s.takeDraw.grR1 = s.grR1 := rfl
@[simp] theorem State.takeDraw_sx (s : State) : s.takeDraw.sx = s.sx := rfl
@[simp] theorem State.takeDraw_sy (s : State) : s.takeDraw.sy = s.sy := rfl
@[simp] theorem State.takeDraw_pswN (s : State) : s.takeDraw.pswN = s.pswN := rfl
@[simp] theorem State.takeDraw_pc (s : State) : s.takeDraw.pc = s.pc := rfl
@[simp] theorem State.takeDraw_mem (s : State) : s.takeDraw.mem = s.mem := rfl
@[simp] theorem State.takeDraw_draws (s : State) : s.takeDraw.draws = s.draws + 1 := rfl

@[simp] theorem State.advancePc_regs (s : State) : s.advancePc.regs = s.regs := rfl
@[simp] theorem State.advancePc_grR1 (s : State) : s.advancePc.grR1 = s.grR1 := rfl
@[simp] theorem State.advancePc_sx (s : State) : s.advancePc.sx = s.sx := rfl
@[simp] theorem State.advancePc_sy (s : State) : s.advancePc.sy = s.sy := rfl
@[simp] theorem State.advancePc_pswN (s : State) : s.advancePc.pswN = s.pswN := rfl
@[simp] theorem State.advancePc_pc (s : State) : s.advancePc.pc = s.pc + 4 := rfl
@[simp] theorem State.advancePc_mem (s : State) : s.advancePc.mem = s.mem := rfl
@[simp] theorem State.advancePc_draws (s : State) : s.advancePc.draws = s.draws := rfl

@[simp] theorem State.skip_regs (s : State) : s.skip.regs = s.regs := rfl
@[simp] theorem State.skip_grR1 (s : State) : s.skip.grR1 = s.grR1 := rfl
@[simp] theorem State.skip_sx (s : State) : s.skip.sx = s.sx := rfl
@[simp] theorem State.skip_sy (s : State) : s.skip.sy = s.sy := rfl
@[simp] theorem State.skip_pswN (s : State) : s.skip.pswN = false := rfl
@[simp] theorem State.skip_pc (s : State) : s.skip.pc = s.pc + 4 := rfl
@[simp] theorem State.skip_mem (s : State) : s.skip.mem = s.mem := rfl
@[simp] theorem State.skip_draws (s : State) : s.skip.draws = s.draws := rfl

@[simp] theorem State.loadWord_regs (s : State) (w : Word) : (s.loadWord w).regs = s.regs := rfl
@[simp] theorem State.loadWord_grR1 (s : State) (w : Word) : (s.loadWord w).grR1 = s.grR1 := rfl
@[simp] theorem State.loadWord_sx (s : State) (w : Word) : (s.loadWord w).sx = s.sx := rfl
@[simp] theorem State.loadWord_sy (s : State) (w : Word) : (s.loadWord w).sy = s.sy := rfl
@[simp] theorem State.loadWord_pswN (s : State) (w : Word) : (s.loadWord w).pswN = false := rfl
@[simp] theorem State.loadWord_pc (s : State) (w : Word) : (s.loadWord w).pc = s.pc := rfl
@[simp] theorem State.loadWord_mem (s : State) (w : Word) : (s.loadWord w).mem = s.mem.writeWord s.pc w := rfl
@[simp] theorem State.loadWord_draws (s : State) (w : Word) : (s.loadWord w).draws = s.draws := rfl

@[simp] theorem State.shiftOutcodes_regs (s : State) (a b : Pair) : (s.shiftOutcodes a b).regs = s.regs := rfl
@[simp] theorem State.shiftOutcodes_grR1 (s : State) (a b : Pair) : (s.shiftOutcodes a b).grR1 = s.grR1 := rfl
@[simp] theorem State.shiftOutcodes_sx (s : State) (a b : Pair) :
    (s.shiftOutcodes a b).sx = shiftIn s.sx (clipCarry (highHalf a) (highHalf b)) := rfl
@[simp] theorem State.shiftOutcodes_sy (s : State) (a b : Pair) :
    (s.shiftOutcodes a b).sy = shiftIn s.sy (clipCarry (lowHalf a) (lowHalf b)) := rfl
@[simp] theorem State.shiftOutcodes_pswN (s : State) (a b : Pair) : (s.shiftOutcodes a b).pswN = s.pswN := rfl
@[simp] theorem State.shiftOutcodes_pc (s : State) (a b : Pair) : (s.shiftOutcodes a b).pc = s.pc := rfl
@[simp] theorem State.shiftOutcodes_mem (s : State) (a b : Pair) : (s.shiftOutcodes a b).mem = s.mem := rfl
@[simp] theorem State.shiftOutcodes_draws (s : State) (a b : Pair) : (s.shiftOutcodes a b).draws = s.draws := rfl

@[simp] theorem State.testOutcodes_regs (s : State) : s.testOutcodes.regs = s.regs := rfl
@[simp] theorem State.testOutcodes_grR1 (s : State) : s.testOutcodes.grR1 = s.grR1 := rfl
@[simp] theorem State.testOutcodes_sx (s : State) : s.testOutcodes.sx = s.sx := rfl
@[simp] theorem State.testOutcodes_sy (s : State) : s.testOutcodes.sy = s.sy := rfl
@[simp] theorem State.testOutcodes_pswN (s : State) : s.testOutcodes.pswN = !Config.clipPred s.sx s.sy := rfl
@[simp] theorem State.testOutcodes_pc (s : State) : s.testOutcodes.pc = s.pc := rfl
@[simp] theorem State.testOutcodes_mem (s : State) : s.testOutcodes.mem = s.mem := rfl
@[simp] theorem State.testOutcodes_draws (s : State) : s.testOutcodes.draws = s.draws := rfl

/-- A register write is an update of the register file alone. -/
theorem State.writeGR_eq (s : State) (r : Reg) (v : Word) :
    s.writeGR r v = { s with regs := (s.writeGR r v).regs } := by
  unfold State.writeGR; split <;> rfl

@[simp] theorem State.writeGR_grR1 (s : State) (r : Reg) (v : Word) : (s.writeGR r v).grR1 = s.grR1 := by rw [State.writeGR_eq]
@[simp] theorem State.writeGR_sx (s : State) (r : Reg) (v : Word) : (s.writeGR r v).sx = s.sx := by rw [State.writeGR_eq]
@[simp] theorem State.writeGR_sy (s : State) (r : Reg) (v : Word) : (s.writeGR r v).sy = s.sy := by rw [State.writeGR_eq]
@[simp] theorem State.writeGR_pswN (s : State) (r : Reg) (v : Word) : (s.writeGR r v).pswN = s.pswN := by rw [State.writeGR_eq]
@[simp] theorem State.writeGR_pc (s : State) (r : Reg) (v : Word) : (s.writeGR r v).pc = s.pc := by rw [State.writeGR_eq]
@[simp] theorem State.writeGR_mem (s : State) (r : Reg) (v : Word) : (s.writeGR r v).mem = s.mem := by rw [State.writeGR_eq]
@[simp] theorem State.writeGR_draws (s : State) (r : Reg) (v : Word) : (s.writeGR r v).draws = s.draws := by rw [State.writeGR_eq]

/-- A pair write is two register writes, the even register taking the more significant half (D1). -/
theorem State.writePair_def (s : State) (r : Reg) (v : Pair) :
    s.writePair r v = (s.writeGR r (highHalf v)).writeGR (r + 1) (lowHalf v) := rfl

@[simp] theorem State.writePair_grR1 (s : State) (r : Reg) (v : Pair) : (s.writePair r v).grR1 = s.grR1 := by simp [State.writePair_def]
@[simp] theorem State.writePair_sx (s : State) (r : Reg) (v : Pair) : (s.writePair r v).sx = s.sx := by simp [State.writePair_def]
@[simp] theorem State.writePair_sy (s : State) (r : Reg) (v : Pair) : (s.writePair r v).sy = s.sy := by simp [State.writePair_def]
@[simp] theorem State.writePair_pswN (s : State) (r : Reg) (v : Pair) : (s.writePair r v).pswN = s.pswN := by simp [State.writePair_def]
@[simp] theorem State.writePair_pc (s : State) (r : Reg) (v : Pair) : (s.writePair r v).pc = s.pc := by simp [State.writePair_def]
@[simp] theorem State.writePair_mem (s : State) (r : Reg) (v : Pair) : (s.writePair r v).mem = s.mem := by simp [State.writePair_def]
@[simp] theorem State.writePair_draws (s : State) (r : Reg) (v : Pair) : (s.writePair r v).draws = s.draws := by simp [State.writePair_def]

/-- A pack writes one register (D11). -/
@[simp] theorem State.writePackDest_eq (s : State) (t : Reg) (v : Word) : s.writePackDest t v = s.writeGR t v := rfl

end Sys2Proof.Machine
end

