-- ==== Sys2Proof/Laws/Registers.lean ====
section
/-!
SUPPORT. General registers and pairs: what a read gives after a write.
-/

namespace Sys2Proof.Machine

/-- Only the register file matters to a register read. -/
theorem State.readGR_congr {s s' : State} (h : s'.regs = s.regs) (r : Reg) : s'.readGR r = s.readGR r := by
  simp only [State.readGR, h]

/-- Only the register file matters to a pair read. -/
theorem State.readPair_congr {s s' : State} (h : s'.regs = s.regs) (r : Reg) : s'.readPair r = s.readPair r := by
  simp only [State.readPair, State.readGR_congr h]

/-- Register 0 reads as zero. -/
@[simp] theorem State.readGR_zero (s : State) : s.readGR 0 = 0 := rfl

/-- A pair reads as its two registers, the even one first. -/
theorem State.readPair_def (s : State) (r : Reg) : s.readPair r = s.readGR r ++ s.readGR (r + 1) := rfl

theorem highHalf_append (a b : Word) : highHalf (a ++ b) = a := by
  simp only [highHalf, BitVec.extractLsb'_append_eq_left]

theorem lowHalf_append (a b : Word) : lowHalf (a ++ b) = b := by
  simp only [lowHalf, BitVec.extractLsb'_append_eq_right]

/-- A pair value is its two halves. -/
theorem highHalf_append_lowHalf (v : Pair) : highHalf v ++ lowHalf v = v := by
  apply BitVec.eq_of_getLsbD_eq
  intro i hi
  simp only [highHalf, lowHalf, BitVec.getLsbD_append, BitVec.getLsbD_extractLsb']
  by_cases h : i < 32
  · simp [h]
  · have : 32 + (i - 32) = i := by omega
    simp [h, this]; intro; omega

/-- A write of another register than 0 is a write of its cell. -/
theorem State.writeGR_of_ne (s : State) {r : Reg} (v : Word) (hr : r ≠ 0) :
    s.writeGR r v = { s with regs := s.regs.set r.toNat v (reg_lt r) } :=
  if_neg (by simpa [Params.gr0IsZero] using hr)

/-- A read of another register than 0 is a read of its cell. -/
theorem State.readGR_of_ne (s : State) {r : Reg} (hr : r ≠ 0) : s.readGR r = s.regs[r.toNat]'(reg_lt r) :=
  if_neg (by simpa [Params.gr0IsZero] using hr)

/-- What a register reads after a register write. -/
theorem State.readGR_writeGR (s : State) (r k : Reg) (v : Word) :
    (s.writeGR r v).readGR k = if k = 0 then 0 else if k = r then v else s.readGR k := by
  by_cases hk : k = 0
  · subst hk; rfl
  · rw [if_neg hk]
    by_cases hr : r = 0
    · subst hr; rw [if_neg hk]; rfl
    · rw [s.writeGR_of_ne v hr, State.readGR_of_ne _ hk]
      by_cases h : k = r
      · subst h; simp
      · have h' : ¬ r.toNat = k.toNat := fun e => h (BitVec.eq_of_toNat_eq e.symm)
        rw [if_neg h, s.readGR_of_ne hk]
        simp [h']

/-- Register 0's hidden cell is never written. -/
theorem State.writeGR_regs_zero (s : State) (r : Reg) (v : Word) : (s.writeGR r v).regs[0] = s.regs[0] := by
  by_cases hr : r = 0
  · subst hr; rfl
  · have h' : ¬ r.toNat = 0 := fun e => hr (BitVec.eq_of_toNat_eq e)
    rw [s.writeGR_of_ne v hr]
    simp [h']

theorem State.writePair_regs_zero (s : State) (r : Reg) (v : Pair) : (s.writePair r v).regs[0] = s.regs[0] := by
  simp only [State.writePair_def, State.writeGR_regs_zero]

/-- The two registers of a pair differ, and the second is not register 0. -/
theorem isEven_succ {r : Reg} (h : isEven r = true) : r + 1 ≠ r ∧ r + 1 ≠ 0 := by
  revert r; decide

/-- What a register reads after a pair write. -/
theorem State.readGR_writePair (s : State) (r k : Reg) (v : Pair) (h : isEven r = true) :
    (s.writePair r v).readGR k =
      if k = 0 then 0 else if k = r then highHalf v else if k = r + 1 then lowHalf v else s.readGR k := by
  have h1 := (isEven_succ h).1
  rw [State.writePair_def, State.readGR_writeGR, State.readGR_writeGR]
  by_cases hk : k = r
  · subst hk; rw [if_neg (Ne.symm h1), if_pos rfl, if_pos rfl]; split_ifs <;> rfl
  · simp only [if_neg hk]
    split_ifs <;> rfl

/-- What the written pair reads: at specifier 0 the upper half is discarded. -/
theorem State.readPair_writePair (s : State) (r : Reg) (v : Pair) (h : isEven r = true) :
    (s.writePair r v).readPair r = (if r = 0 then 0 else highHalf v) ++ lowHalf v := by
  obtain ⟨h1, h2⟩ := isEven_succ h
  rw [State.readPair_def, State.readGR_writePair s r _ v h, State.readGR_writePair s r _ v h]
  rw [if_neg h2, if_neg h1, if_pos rfl, if_pos rfl]

end Sys2Proof.Machine
end

