-- ==== Sys2Proof/Laws/Operands.lean ====
section
/-!
SUPPORT. Bit fields as numbers, the saturating operation, the fields of each result, and what the operand
shapes "pair, pair, pair" and "pair, register" can do.
-/

namespace Sys2Proof.Machine

/-- The number of a field is the number of its bits (00_scope.md R7). -/
theorem fieldVal_eq {W : Nat} (v : BitVec W) (a b w : Nat) (hab : a ≤ b + 1) (hw : b + 1 - a = w) (hb : b < W) :
    fieldVal v a b = (field v a w).toNat := by
  subst hw
  have : W - a - (b + 1 - a) = W - 1 - b := by omega
  simp only [fieldVal, field, BitVec.extractLsb'_toNat, Nat.shiftRight_eq_div_pow, this]

/-- The saturating operation on numbers (00_scope.md R9). -/
theorem toNat_satOp {w : Nat} (sel : Bool) (a b : BitVec w) :
    (satOp sel a b).toNat = satVal sel w a.toNat b.toNat := by
  have ha := a.isLt
  have hb := b.isLt
  have hp : 0 < 2 ^ w := Nat.two_pow_pos w
  unfold satOp satVal
  cases sel
  · simp only [Bool.false_eq_true, if_false, satAdd]
    split_ifs with h
    · rw [BitVec.toNat_ofNat, Nat.mod_eq_of_lt (by omega), Nat.min_eq_left h]
    · rw [BitVec.toNat_ofNat, Nat.mod_eq_of_lt (by omega), Nat.min_eq_right (by omega)]
  · simp only [if_true, satSub]
    split_ifs with h
    · rw [BitVec.toNat_ofNat, Nat.mod_eq_of_lt (by omega)]
    · simp; omega

/-- The four 16-bit fields of a GR_ARITH_8_8 result (40_arith.md R84). -/
theorem field_arith88 (g : BitVec 3) (a b : Pair) (h : Nat) (hh : h < 4) :
    field (arith88 g a b) (16 * h) 16 = satOp (g.getLsbD 0) (field a (16 * h) 16) (field b (16 * h) 16) := by
  have key (x0 x1 x2 x3 : BitVec 16) : field (x0 ++ x1 ++ x2 ++ x3 : Pair) (16 * h) 16 = [x0, x1, x2, x3][h] := by
    apply BitVec.eq_of_getLsbD_eq
    intro i hi
    simp only [field, BitVec.getLsbD_extractLsb', BitVec.getLsbD_append]
    interval_cases h <;> interval_cases i <;> rfl
  rw [arith88, key]
  interval_cases h <;> rfl

/-- The fields of a triplet of 5-bit colours. -/
theorem field_arithTriplet5 (g : BitVec 3) (d : BitVec 1) (a b : BitVec 16) :
    field (arithTriplet (u := 1) (w := 5) g d a b : BitVec 16) 1 5 = satOp (g.getLsbD 2) (field a 1 5) (field b 1 5) ∧
    field (arithTriplet (u := 1) (w := 5) g d a b : BitVec 16) 6 5 = satOp (g.getLsbD 1) (field a 6 5) (field b 6 5) ∧
    field (arithTriplet (u := 1) (w := 5) g d a b : BitVec 16) 11 5 =
      satOp (g.getLsbD 0) (field a 11 5) (field b 11 5) := by
  have key (x : BitVec 1) (y z w : BitVec 5) :
      field (x ++ y ++ z ++ w : BitVec 16) 1 5 = y ∧ field (x ++ y ++ z ++ w : BitVec 16) 6 5 = z ∧
      field (x ++ y ++ z ++ w : BitVec 16) 11 5 = w := by
    refine ⟨?_, ?_, ?_⟩ <;>
      (apply BitVec.eq_of_getLsbD_eq
       intro i hi
       simp only [field, BitVec.getLsbD_extractLsb', BitVec.getLsbD_append]
       interval_cases i <;> rfl)
  exact key _ _ _ _

/-- The fields of a triplet of 10-bit colours. -/
theorem field_arithTriplet10 (g : BitVec 3) (d : BitVec 2) (a b : BitVec 32) :
    field (arithTriplet (u := 2) (w := 10) g d a b : BitVec 32) 2 10 =
      satOp (g.getLsbD 2) (field a 2 10) (field b 2 10) ∧
    field (arithTriplet (u := 2) (w := 10) g d a b : BitVec 32) 12 10 =
      satOp (g.getLsbD 1) (field a 12 10) (field b 12 10) ∧
    field (arithTriplet (u := 2) (w := 10) g d a b : BitVec 32) 22 10 =
      satOp (g.getLsbD 0) (field a 22 10) (field b 22 10) := by
  have key (x : BitVec 2) (y z w : BitVec 10) :
      field (x ++ y ++ z ++ w : BitVec 32) 2 10 = y ∧ field (x ++ y ++ z ++ w : BitVec 32) 12 10 = z ∧
      field (x ++ y ++ z ++ w : BitVec 32) 22 10 = w := by
    refine ⟨?_, ?_, ?_⟩ <;>
      (apply BitVec.eq_of_getLsbD_eq
       intro i hi
       simp only [field, BitVec.getLsbD_extractLsb', BitVec.getLsbD_append]
       interval_cases i <;> rfl)
  exact key _ _ _ _

/-- A field of a field is a field. -/
theorem field_field {W : Nat} (v : BitVec W) (a m b w : Nat) (hm : a + m ≤ W) (hw : b + w ≤ m) :
    field (field v a m) b w = field v (a + b) w := by
  apply BitVec.eq_of_getLsbD_eq
  intro i hi
  simp only [field, BitVec.getLsbD_extractLsb', hi, decide_true, Bool.true_and]
  have h1 : m - b - w + i < m := by omega
  have h2 : W - a - m + (m - b - w + i) = W - (a + b) - w + i := by omega
  simp [h1, h2]

/-- The fields of a 64-bit value made of four halfwords. -/
theorem field_append4 (x0 x1 x2 x3 : BitVec 16) (h : Nat) (hh : h < 4) :
    field (x0 ++ x1 ++ x2 ++ x3 : Pair) (16 * h) 16 = [x0, x1, x2, x3][h] := by
  apply BitVec.eq_of_getLsbD_eq
  intro i hi
  simp only [field, BitVec.getLsbD_extractLsb', BitVec.getLsbD_append]
  interval_cases h <;> interval_cases i <;> rfl

/-- The fields of a 64-bit value made of two fullwords. -/
theorem field_append2 (x0 x1 : BitVec 32) (k : Nat) (hk : k < 2) :
    field (x0 ++ x1 : Pair) (32 * k) 32 = [x0, x1][k] := by
  apply BitVec.eq_of_getLsbD_eq
  intro i hi
  simp only [field, BitVec.getLsbD_extractLsb', BitVec.getLsbD_append]
  interval_cases k <;> interval_cases i <;> rfl

/-- The twelve 5-bit fields of a GR_ARITH_5 result (40_arith.md R82, Table A1), whatever the unused bits. -/
theorem field_arith5 (g : BitVec 3) (d : BitVec 4) (a b : Pair) (h : Nat) (hh : h < 4) :
    field (arith5 g d a b) (16 * h + 1) 5 = satOp (g.getLsbD 2) (field a (16 * h + 1) 5) (field b (16 * h + 1) 5) ∧
    field (arith5 g d a b) (16 * h + 6) 5 = satOp (g.getLsbD 1) (field a (16 * h + 6) 5) (field b (16 * h + 6) 5) ∧
    field (arith5 g d a b) (16 * h + 11) 5 =
      satOp (g.getLsbD 0) (field a (16 * h + 11) 5) (field b (16 * h + 11) 5) := by
  have key : field (arith5 g d a b) (16 * h) 16 =
      arithTriplet (u := 1) (w := 5) g (field d h 1) (field a (16 * h) 16) (field b (16 * h) 16) := by
    rw [arith5, field_append4 _ _ _ _ h hh]
    interval_cases h <;> rfl
  obtain ⟨h1, h2, h3⟩ := field_arithTriplet5 g (field d h 1) (field a (16 * h) 16) (field b (16 * h) 16)
  rw [← key] at h1 h2 h3
  simp only [field_field (W := 64) _ (16 * h) 16 1 5 (by omega) (by omega),
    field_field (W := 64) _ (16 * h) 16 6 5 (by omega) (by omega),
    field_field (W := 64) _ (16 * h) 16 11 5 (by omega) (by omega)] at h1 h2 h3
  exact ⟨h1, h2, h3⟩

/-- The six 10-bit fields of a GR_ARITH_5_5 result (40_arith.md R83, Table A2), whatever the unused bits. -/
theorem field_arith55 (g : BitVec 3) (d : BitVec 4) (a b : Pair) (k : Nat) (hk : k < 2) :
    field (arith55 g d a b) (32 * k + 2) 10 =
      satOp (g.getLsbD 2) (field a (32 * k + 2) 10) (field b (32 * k + 2) 10) ∧
    field (arith55 g d a b) (32 * k + 12) 10 =
      satOp (g.getLsbD 1) (field a (32 * k + 12) 10) (field b (32 * k + 12) 10) ∧
    field (arith55 g d a b) (32 * k + 22) 10 =
      satOp (g.getLsbD 0) (field a (32 * k + 22) 10) (field b (32 * k + 22) 10) := by
  have key : field (arith55 g d a b) (32 * k) 32 =
      arithTriplet (u := 2) (w := 10) g (field d (2 * k) 2) (field a (32 * k) 32) (field b (32 * k) 32) := by
    rw [arith55, field_append2 _ _ k hk]
    interval_cases k <;> rfl
  obtain ⟨h1, h2, h3⟩ := field_arithTriplet10 g (field d (2 * k) 2) (field a (32 * k) 32) (field b (32 * k) 32)
  rw [← key] at h1 h2 h3
  simp only [field_field (W := 64) _ (32 * k) 32 2 10 (by omega) (by omega),
    field_field (W := 64) _ (32 * k) 32 12 10 (by omega) (by omega),
    field_field (W := 64) _ (32 * k) 32 22 10 (by omega) (by omega)] at h1 h2 h3
  exact ⟨h1, h2, h3⟩

/-- The four bytes of a GR_PACK_8_8 result (43_pack.md R121). -/
theorem field_pack88 (v : Pair) (k : Nat) (hk : k < 4) : field (pack88 v) (8 * k) 8 = field v (16 * k) 8 := by
  have key (x0 x1 x2 x3 : BitVec 8) : field (x0 ++ x1 ++ x2 ++ x3 : Word) (8 * k) 8 = [x0, x1, x2, x3][k] := by
    apply BitVec.eq_of_getLsbD_eq
    intro i hi
    simp only [field, BitVec.getLsbD_extractLsb', BitVec.getLsbD_append]
    interval_cases k <;> interval_cases i <;> rfl
  rw [pack88, key]
  interval_cases k <;> rfl

/-- The six 5-bit fields of a GR_PACK_5_5 result (43_pack.md R120), whatever the unused bits. -/
theorem field_pack55 (d : BitVec 2) (v : Pair) (k : Nat) (hk : k < 2) :
    field (pack55 d v) (16 * k + 1) 5 = field v (32 * k + 2) 5 ∧
    field (pack55 d v) (16 * k + 6) 5 = field v (32 * k + 12) 5 ∧
    field (pack55 d v) (16 * k + 11) 5 = field v (32 * k + 22) 5 := by
  refine ⟨?_, ?_, ?_⟩ <;>
    (apply BitVec.eq_of_getLsbD_eq
     intro i hi
     simp only [pack55, field, BitVec.getLsbD_extractLsb', BitVec.getLsbD_append]
     interval_cases k <;> interval_cases i <;> simp)

/-- Everything the shape "pair, pair, pair" can do: it gives `k` the two operands where the three specifiers are even,
and refuses otherwise. -/
theorem pairOp_eq (r1 r2 t : Reg) (s : State) (k : Pair → Pair → Reg → State) :
    pairOp r1 r2 t s k =
      if isEven r1 = true ∧ isEven r2 = true ∧ isEven t = true
      then .next (k (s.readPair r1) (s.readPair r2) t).advancePc
      else .refused .oddPairSpecifier := by
  simp only [pairOp, pairBase_eq]
  by_cases h1 : isEven r1 = true <;> by_cases h2 : isEven r2 = true <;> by_cases h3 : isEven t = true <;> simp [h1, h2, h3]

/-- The shape "pair, pair, pair" completes only with three even specifiers. -/
theorem pairOp_next {r1 r2 t : Reg} {k : Pair → Pair → Reg → State} {s s' : State} (h : pairOp r1 r2 t s k = .next s') :
    isEven r1 = true ∧ isEven r2 = true ∧ isEven t = true ∧ s' = (k (s.readPair r1) (s.readPair r2) t).advancePc := by
  rw [pairOp_eq] at h
  split_ifs at h with he
  injection h with h
  exact ⟨he.1, he.2.1, he.2.2, h.symm⟩

/-- Everything the shape "pair, register" can do: it writes register t where r2 is even, and refuses otherwise. -/
theorem packOp_eq (r2 t : Reg) (f : Pair → Word) (s : State) :
    packOp r2 t f s =
      if isEven r2 = true then .next (s.writeGR t (f (s.readPair r2))).advancePc
      else .refused .oddPairSpecifier := by
  simp only [packOp, pairBase_eq]
  by_cases h : isEven r2 = true <;> simp [h]

/-- The shape "pair, register" completes only with an even r2. -/
theorem packOp_next {r2 t : Reg} {f : Pair → Word} {s s' : State} (h : packOp r2 t f s = .next s') :
    isEven r2 = true ∧ s' = (s.writeGR t (f (s.readPair r2))).advancePc := by
  rw [packOp_eq] at h
  split_ifs at h with he
  injection h with h
  exact ⟨he, h.symm⟩

end Sys2Proof.Machine
end

