-- ==== Sys2Proof/Laws/Exec.lean ====
section
/-!
SUPPORT. Everything each meaning can do, said once; what every meaning keeps; fetch and step by cases.
-/

namespace Sys2Proof.Machine

/-- What exec of an instruction leaves, where it completes: one line per constructor. -/
def execResult : Instr → State → State
  | .grArith5 r1 r2 t, s =>
    ((s.takeDraw.writePair t (arith5 s.grR1 (s.draw.extractLsb' 0 4) (s.readPair r1) (s.readPair r2)))).advancePc
  | .grArith55 r1 r2 t, s =>
    ((s.takeDraw.writePair t (arith55 s.grR1 (s.draw.extractLsb' 0 4) (s.readPair r1) (s.readPair r2)))).advancePc
  | .grPack55 r2 t, s => (s.takeDraw.writeGR t (pack55 (s.draw.extractLsb' 0 2) (s.readPair r2))).advancePc
  | .grClipSub r1 r2 t, s =>
    ((s.shiftOutcodes (s.readPair r1) (s.readPair r2)).writePair t (clipSub (s.readPair r1) (s.readPair r2))).advancePc
  | .grArith88 r1 r2 t, s => (s.writePair t (arith88 s.grR1 (s.readPair r1) (s.readPair r2))).advancePc
  | .grPack88 r2 t, s => (s.writeGR t (pack88 (s.readPair r2))).advancePc
  | .grClipTest, s => s.testOutcodes.advancePc
  | .grMtcl r2, s => { s with grR1 := field (s.readGR r2) 29 3 }.advancePc

/-- exec completes exactly on well-formed instructions, and refuses the others by name. -/
theorem exec_eq (i : Instr) (s : State) :
    exec i s = if i.wellFormed = true then .next (execResult i s) else .refused .oddPairSpecifier := by
  cases i <;>
    simp [exec, execResult, execGrArith5, execGrArith55, execGrArith88, execGrClipSub, execGrClipTest, execGrMtcl,
      execGrPack55, execGrPack88, pairOp_eq, packOp_eq, Instr.wellFormed, and_assoc,
      State.readPair_congr (State.takeDraw_regs s)]

/-- exec answers a next state only for a well-formed instruction, and that state is its result. -/
theorem exec_next {i : Instr} {s s' : State} (h : exec i s = .next s') : i.wellFormed = true ∧ s' = execResult i s := by
  rw [exec_eq] at h
  split_ifs at h with hw
  injection h with h
  exact ⟨hw, h.symm⟩

/-- Every result moves the pc by 4, keeps the text, and keeps register 0's cell. -/
theorem result_keeps (i : Instr) (s : State) :
    (execResult i s).pc = s.pc + 4 ∧ (execResult i s).mem = s.mem ∧ (execResult i s).regs[0] = s.regs[0] := by
  cases i <;> simp [execResult, State.writeGR_regs_zero, State.writePair_regs_zero]

/-- What fetch answers: a word only from an aligned pc below the last word, with text there. -/
theorem fetch_next {s : State} {w : Word} (h : s.fetch = .next w) :
    s.pc.toNat % 4 = 0 ∧ s.pc ≠ 0xFFFFFFFC ∧ s.mem.readWord s.pc = some w := by
  unfold State.fetch at h
  split_ifs at h with h1 h2
  split at h
  · rename_i w' hw
    injection h with h
    subst h
    exact ⟨by omega, h2, hw⟩
  · cases h

/-- fetch answers a word from every such pc. -/
theorem fetch_eq {s : State} {w : Word} (h1 : s.pc.toNat % 4 = 0) (h2 : s.pc ≠ 0xFFFFFFFC)
    (h3 : s.mem.readWord s.pc = some w) : s.fetch = .next w := by
  rw [State.fetch, if_neg (by omega), if_neg h2, h3]

/-- There is text at an aligned pc exactly where its four bytes are listed. -/
theorem textAt_iff {s : State} {w : Word} (h : s.pc.toNat % 4 = 0) :
    s.textAt s.pc.toNat w ↔ s.mem.readWord s.pc = some w := by
  rw [Memory.readWord_eq_some_iff _ _ _ h]
  simp only [State.textAt, State.readByte, byteOfWord_eq]

/-- A word that decodes is executed. -/
theorem execWord_of_ok {w : Word} {i : Instr} (h : decode w = .ok i) (s : State) : execWord w s = exec i s := by
  simp only [execWord, h]

/-- A word that does not decode is refused by the decoder's reason. -/
theorem execWord_of_error {w : Word} {e : DecodeError} (h : decode w = .error e) (s : State) :
    execWord w s = .refused (.undecodable e) := by
  simp only [execWord, h]

/-- Everything a step that completes can do: it skips, or it executes the decoded instruction. -/
theorem step_cases {s s' : State} (h : step s = .next s') :
    s.pc.toNat % 4 = 0 ∧ s.pc ≠ 0xFFFFFFFC ∧ ∃ w : Word, s.textAt s.pc.toNat w ∧
      (s.pswN = true ∧ s' = s.skip ∨
       s.pswN = false ∧ ∃ i : Instr, decode w = .ok i ∧ i.wellFormed = true ∧ s' = execResult i s) := by
  unfold step at h
  split at h
  · rename_i w hw
    obtain ⟨h1, h2, h3⟩ := fetch_next hw
    refine ⟨h1, h2, w, (textAt_iff h1).2 h3, ?_⟩
    split_ifs at h with hn
    · injection h with h
      exact .inl ⟨hn, h.symm⟩
    · unfold execWord at h
      split at h
      · rename_i i hi
        obtain ⟨hw', hr⟩ := exec_next h
        exact .inr ⟨by simpa using hn, i, hi, hw', hr⟩
      · cases h
  · cases h
  · cases h

/-- A step from a pc that can be fetched at, with a word of text there. -/
theorem step_eq {s : State} {w : Word} (h1 : s.pc.toNat % 4 = 0) (h2 : s.pc ≠ 0xFFFFFFFC)
    (h3 : s.textAt s.pc.toNat w) :
    step s = if s.pswN = true then .next s.skip else execWord w s := by
  simp only [step, fetch_eq h1 h2 ((textAt_iff h1).1 h3)]

/-- The pc of a completed step does not wrap. -/
theorem pc_add_four {a : Word} (h1 : a.toNat % 4 = 0) (h2 : a ≠ 0xFFFFFFFC) : (a + 4).toNat = a.toNat + 4 := by
  have h := a.isLt
  have h3 : a.toNat ≠ 0xFFFFFFFC := fun e => h2 (BitVec.eq_of_toNat_eq e)
  have h4 : (4 : Word).toNat = 4 := rfl
  rw [BitVec.toNat_add, h4]
  omega

/-- No step of a run is the state itself. -/
theorem run_zero (s : State) : Host.Core.run core 0 s = (.next s : Host.Outcome State Fault Refusal) := rfl

/-- A run's first step, then the rest of it (any machine behind the host's interface). -/
theorem run_succ_next {M : Host.Core} {k : Nat} {s s' : M.State} (h : M.run (k + 1) s = .next s') :
    ∃ u : M.State, M.step s = .next u ∧ M.run k u = .next s' := by
  unfold Host.Core.run at h
  split at h
  · rename_i u hu
    exact ⟨u, hu, h⟩
  · cases h
  · cases h

/-- A run whose first step completes is the rest of the run from there. -/
theorem run_of_next {M : Host.Core} {k : Nat} {s u : M.State} (h : M.step s = .next u) : M.run (k + 1) s = M.run k u := by
  simp only [Host.Core.run, h]

/-- A run whose first step is refused stops with that reason. -/
theorem run_of_refused {M : Host.Core} {k : Nat} {s : M.State} {r : M.Refusal} (h : M.step s = .refused r) :
    M.run (k + 1) s = .refused r := by
  simp only [Host.Core.run, h]

end Sys2Proof.Machine
end

