-- ==== Sys2Proof/Laws/Launch.lean ====
section
/-!
SUPPORT. The launch: the bytes of a text, the cells of a precondition, and everything a load and a run can do.
-/

namespace Sys2Proof.Machine

/-- The bytes of a text: byte `k` of word `j` at base + 4j + k, and nothing before the base or after the last word. -/
theorem Memory.read_ofWords (ws : List Word) (b a : Nat) :
    (Memory.ofWords b ws).read a =
      if a < b then none else (ws[(a - b) / 4]?).map fun w => byteOfWord w ((a - b) % 4) := by
  induction ws generalizing b with
  | nil => simp [Memory.ofWords, Memory.read]
  | cons w ws ih =>
    simp only [Memory.ofWords, Memory.read, ih]
    by_cases h : a < b
    · rw [if_neg (by omega), if_neg (by omega), if_neg (by omega), if_neg (by omega), if_pos (by omega), if_pos h]
    · rw [if_neg h]
      by_cases h4 : a < b + 4
      · have hd : (a - b) / 4 = 0 := by omega
        obtain e | e | e | e : a = b ∨ a = b + 1 ∨ a = b + 2 ∨ a = b + 3 := by omega
        all_goals subst e; simp [hd]
      · have hd : (a - b) / 4 = (a - (b + 4)) / 4 + 1 := by omega
        have hm : (a - b) % 4 = (a - (b + 4)) % 4 := by omega
        rw [if_neg (by omega), if_neg (by omega), if_neg (by omega), if_neg (by omega), if_neg h4, hd, hm,
          List.getElem?_cons_succ]

/-- The bytes of a text below 2^32 are in canonical form. -/
theorem Memory.wfFrom_ofWords (ws : List Word) (lo b : Nat) (hlo : lo ≤ b) (hb : b + 4 * ws.length ≤ 2 ^ 32) :
    (Memory.ofWords b ws).wfFrom lo = true := by
  induction ws generalizing b lo with
  | nil => rfl
  | cons w ws ih =>
    simp only [List.length_cons] at hb
    simp only [Memory.ofWords, Memory.wfFrom, Bool.and_eq_true, decide_eq_true_eq]
    refine ⟨⟨hlo, ?_⟩, ⟨?_, ?_⟩, ⟨?_, ?_⟩, ⟨?_, ?_⟩, ih _ _ ?_ ?_⟩ <;> omega

/-- The words of a loaded text stand where they were loaded. -/
theorem textAt_ofWords {s : State} {b k : Nat} {ws : List Word} {w : Word} (hm : s.mem = Memory.ofWords b ws)
    (h : ws[k]? = some w) : s.textAt (b + 4 * k) w := by
  intro j hj
  have e1 : (b + 4 * k + j - b) / 4 = k := by omega
  have e2 : (b + 4 * k + j - b) % 4 = j := by omega
  rw [State.readByte, hm, Memory.read_ofWords, if_neg (by omega), e1, e2, h, ← byteOfWord_eq]
  rfl

/-- Nothing else is text. -/
theorem readByte_ofWords_outside {s : State} {b a : Nat} {ws : List Word} (hm : s.mem = Memory.ofWords b ws)
    (h : a < b ∨ b + 4 * ws.length ≤ a) : s.readByte a = none := by
  rw [State.readByte, hm, Memory.read_ofWords]
  rcases h with h | h
  · rw [if_pos h]
  · rw [if_neg (by omega), List.getElem?_eq_none (by omega)]
    rfl

/-- Writing registers is an update of the register file alone. -/
theorem State.writeGRs_eq (s : State) (l : List (Reg × Word)) :
    s.writeGRs l = { s with regs := (s.writeGRs l).regs } := by
  induction l generalizing s with
  | nil => rfl
  | cons rv l ih => rw [State.writeGRs, ih, State.writeGR_eq]

/-- A register that is not listed keeps its value. -/
theorem State.readGR_writeGRs_other (s : State) (l : List (Reg × Word)) (r : Reg) (h : r ∉ l.map Prod.fst) :
    (s.writeGRs l).readGR r = s.readGR r := by
  induction l generalizing s with
  | nil => rfl
  | cons rv l ih =>
    simp only [List.map_cons, List.mem_cons, not_or] at h
    rw [State.writeGRs, ih _ h.2, State.readGR_writeGR, if_neg h.1]
    split_ifs with h0
    · subst h0; rfl
    · rfl

/-- A register listed once takes its value. -/
theorem State.readGR_writeGRs (s : State) (l : List (Reg × Word)) (hl : (l.map Prod.fst).Nodup) (rv : Reg × Word)
    (h : rv ∈ l) (h0 : rv.1 ≠ 0) : (s.writeGRs l).readGR rv.1 = rv.2 := by
  induction l generalizing s with
  | nil => cases h
  | cons x l ih =>
    simp only [List.map_cons, List.nodup_cons] at hl
    rw [State.writeGRs]
    rcases List.mem_cons.1 h with rfl | h'
    · rw [State.readGR_writeGRs_other _ _ _ hl.1, State.readGR_writeGR, if_neg h0, if_pos rfl]
    · exact ih _ hl.2 h'

/-- Register 0's cell is not written. -/
theorem State.writeGRs_regs_zero (s : State) (l : List (Reg × Word)) : (s.writeGRs l).regs[0] = s.regs[0] := by
  induction l generalizing s with
  | nil => rfl
  | cons rv l ih => rw [State.writeGRs, ih, State.writeGR_regs_zero]

/-- The given bits are the precondition's, the others are kept. -/
theorem givenBits_and (old given v : BitVec 4) :
    givenBits old given v &&& given = v &&& given ∧ givenBits old given v &&& ~~~given = old &&& ~~~given := by
  constructor <;>
    (apply BitVec.eq_of_getLsbD_eq
     intro i hi
     simp only [givenBits, BitVec.getLsbD_and, BitVec.getLsbD_or, BitVec.getLsbD_not, hi, decide_true, Bool.true_and]
     cases old.getLsbD i <;> cases given.getLsbD i <;> cases v.getLsbD i <;> rfl)

@[simp] theorem State.preload_regs (s : State) (p : Precondition) : (s.preload p).regs = (s.writeGRs p.regs).regs := rfl
@[simp] theorem State.preload_grR1 (s : State) (p : Precondition) : (s.preload p).grR1 = p.grR1.getD s.grR1 := rfl
@[simp] theorem State.preload_sx (s : State) (p : Precondition) : (s.preload p).sx = givenBits s.sx p.sxGiven p.sx := rfl
@[simp] theorem State.preload_sy (s : State) (p : Precondition) : (s.preload p).sy = givenBits s.sy p.syGiven p.sy := rfl
@[simp] theorem State.preload_pswN (s : State) (p : Precondition) : (s.preload p).pswN = s.pswN := by
  rw [State.preload, State.writeGRs_eq]
@[simp] theorem State.preload_pc (s : State) (p : Precondition) : (s.preload p).pc = s.pc := by
  rw [State.preload, State.writeGRs_eq]
@[simp] theorem State.preload_mem (s : State) (p : Precondition) : (s.preload p).mem = s.mem := by
  rw [State.preload, State.writeGRs_eq]
@[simp] theorem State.preload_draws (s : State) (p : Precondition) : (s.preload p).draws = s.draws := by
  rw [State.preload, State.writeGRs_eq]

/-- Everything a load can do where it completes. -/
theorem load_next {l : Launch} {s s' : State} (h : l.load s = .next s') :
    l.base.toNat % 4 = 0 ∧ l.stop ≤ 0xFFFFFFFC ∧
      s' = { s.preload l.pre with pc := l.base, pswN := false, mem := Memory.ofWords l.base.toNat l.text } := by
  unfold Launch.load at h
  split_ifs at h with h1 h2
  injection h with h
  exact ⟨by omega, by omega, h.symm⟩

/-- A load completes from every aligned base whose text ends by 0xFFFFFFFC. -/
theorem load_eq {l : Launch} (s : State) (h1 : l.base.toNat % 4 = 0) (h2 : l.stop ≤ 0xFFFFFFFC) :
    l.load s =
      .next { s.preload l.pre with pc := l.base, pswN := false, mem := Memory.ofWords l.base.toNat l.text } := by
  rw [Launch.load, if_neg (by omega), if_neg (by omega)]

/-- After a load the text is the launch's words at its base, and nothing else. -/
theorem load_text {l : Launch} {s u : State} (h : l.load s = .next u) :
    (∀ (k : Nat) (w : Word), l.text[k]? = some w → u.textAt (l.base.toNat + 4 * k) w) ∧
      ∀ a, a < l.base.toNat ∨ l.base.toNat + 4 * l.text.length ≤ a → u.readByte a = none := by
  obtain ⟨-, -, rfl⟩ := load_next h
  exact ⟨fun _ _ hw => textAt_ofWords rfl hw, fun _ ha => readByte_ofWords_outside rfl ha⟩

/-- After a load the cells that the precondition gives have its values, where it gives each register once. -/
theorem load_cells {l : Launch} {s u : State} (h : l.load s = .next u) (hn : (l.pre.regs.map Prod.fst).Nodup) :
    (∀ rv ∈ l.pre.regs, rv.1 ≠ 0 → u.readGR rv.1 = rv.2) ∧ (∀ g, l.pre.grR1 = some g → u.grR1 = g) ∧
      u.sx &&& l.pre.sxGiven = l.pre.sx &&& l.pre.sxGiven ∧ u.sy &&& l.pre.syGiven = l.pre.sy &&& l.pre.syGiven := by
  obtain ⟨-, -, rfl⟩ := load_next h
  exact ⟨State.readGR_writeGRs s _ hn, fun g hg => by simp [hg], (givenBits_and _ _ _).1, (givenBits_and _ _ _).1⟩

/-- With nothing done by the host, a run is the steps from the launch state to the end. -/
theorem run_eq {l : Launch} {s u : State} (hh : l.host = []) (hu : l.load s = .next u) :
    l.run s = runUntil l.stop l.text.length u := by
  simp only [Launch.run, hh, hu]

/-- One more step of a run that is not at its end. -/
theorem runUntil_succ {stop k : Nat} {s : State} (h : s.pc.toNat ≠ stop) :
    (∀ u, step s = .next u → runUntil stop (k + 1) s = runUntil stop k u) ∧
    (∀ r, step s = .refused r → runUntil stop (k + 1) s = .refused r) := by
  constructor <;> (intro x hx; simp only [runUntil, if_neg h, hx])

end Sys2Proof.Machine
end

