-- ==== Sys2Proof/Laws/PerInstr.lean ====
section
/-!
SUPPORT. Per instruction, about its syntax: its word belongs to the graphics SFU family and its fields are read
back from it (30_encoding.md R59, R60).
-/

namespace Sys2Proof.Laws.EncodedInFamily

/-- The word of the instruction is of the family, and its fields match the row of that instruction. -/
def Statement (i : Instr) : Prop :=
  inFamily (fieldsOf (encode i)) = true ∧ rowOf (fieldsOf (encode i)) = some i

theorem of_fields (i : Instr) : Statement i := by
  rw [Statement, encode, fieldsOf_wordOf]
  exact ⟨inFamily_encodeFields i, rowOf_encodeFields i⟩

theorem grArith5 (r1 r2 t : Reg) : Statement (.grArith5 r1 r2 t) := of_fields _
theorem grArith55 (r1 r2 t : Reg) : Statement (.grArith55 r1 r2 t) := of_fields _
theorem grPack55 (r2 t : Reg) : Statement (.grPack55 r2 t) := of_fields _
theorem grClipSub (r1 r2 t : Reg) : Statement (.grClipSub r1 r2 t) := of_fields _
theorem grArith88 (r1 r2 t : Reg) : Statement (.grArith88 r1 r2 t) := of_fields _
theorem grPack88 (r2 t : Reg) : Statement (.grPack88 r2 t) := of_fields _
theorem grClipTest : Statement .grClipTest := of_fields _
theorem grMtcl (r2 : Reg) : Statement (.grMtcl r2) := of_fields _

end Sys2Proof.Laws.EncodedInFamily
end

