-- ==== Sys2Proof/Tests/Slice0.lean ====
section
/-!
SUPPORT. Tests: ill-formed terms refused, words decoded bit by bit from the Format rows, one-step results from
95_test_vectors.md, and a state and operands that meet the hypotheses of each statement.
-/

namespace Sys2Proof.Tests

open Sys2Proof Sys2Proof.Machine

/-! ### Well-formedness: an ill-formed term for each check (30_encoding.md Table E3) -/

theorem test_wf_arith_odd_r1 : (Instr.grArith5 5 6 8).wellFormed = false := by decide
theorem test_wf_arith_odd_r2 : (Instr.grArith55 4 7 8).wellFormed = false := by decide
theorem test_wf_arith_odd_t : (Instr.grArith88 4 6 9).wellFormed = false := by decide
theorem test_wf_clip_sub_odd_t : (Instr.grClipSub 4 8 13).wellFormed = false := by decide
theorem test_wf_pack55_odd_r2 : (Instr.grPack55 9 12).wellFormed = false := by decide
theorem test_wf_pack88_odd_r2 : (Instr.grPack88 31 0).wellFormed = false := by decide
theorem test_wf_odd_single_registers_are_fine :
    (Instr.grPack88 30 31).wellFormed = true ∧ (Instr.grPack55 0 13).wellFormed = true ∧
    (Instr.grMtcl 31).wellFormed = true ∧ Instr.grClipTest.wellFormed = true := by decide

/-! ### Decoding: op r2 r1 sub sel sfu n t = 6 5 5 5 2 3 1 5 bits (30_encoding.md R58; 95_test_vectors.md 2.1) -/

theorem test_decode_arith5 : decode 0b00010000110001000000111001001000 = .ok (.grArith5 4 6 8) := by decide
theorem test_decode_arith55 : decode 0b00010000110010000001011001001010 = .ok (.grArith55 8 6 10) := by decide
theorem test_decode_arith88 : decode 0b00010000110001000010111001001000 = .ok (.grArith88 4 6 8) := by decide
theorem test_decode_clip_sub : decode 0b00010000110010100010011001001100 = .ok (.grClipSub 10 6 12) := by decide
theorem test_decode_clip_test : decode 0b00010000000000000011111001100000 = .ok .grClipTest := by decide
theorem test_decode_mtcl : decode 0b00010000011000000100011001000000 = .ok (.grMtcl 3) := by decide
theorem test_decode_pack55 : decode 0b00010001010000000001111001001101 = .ok (.grPack55 10 13) := by decide
theorem test_decode_pack88 : decode 0b00010001000000000011011001001010 = .ok (.grPack88 8 10) := by decide

/-- The refused words of 95_test_vectors.md 2.1, each by its name. -/
theorem test_decode_refused :
    decode 0x10C50E48 = .error (.oddPairSpecifier 0x10C50E48) ∧
    decode 0x10E40E48 = .error (.oddPairSpecifier 0x10E40E48) ∧
    decode 0x11201E4C = .error (.oddPairSpecifier 0x11201E4C) ∧
    decode 0x11011E4C = .error (.reservedGraphicsSfuEncoding 0x11011E4C) ∧
    decode 0x10614640 = .error (.reservedGraphicsSfuEncoding 0x10614640) ∧
    decode 0x10003E61 = .error (.reservedGraphicsSfuEncoding 0x10003E61) ∧
    decode 0x10C40E68 = .error (.reservedGraphicsSfuEncoding 0x10C40E68) ∧
    decode 0x10000640 = .error (.reservedGraphicsSfuEncoding 0x10000640) ∧
    decode 0x10004E40 = .error (.reservedGraphicsSfuEncoding 0x10004E40) ∧
    decode 0x1000FE40 = .error (.reservedGraphicsSfuEncoding 0x1000FE40) ∧
    decode 0x10000C40 = .error (.notGraphicsSfu 0x10000C40) ∧
    decode 0x14000E40 = .error (.notGraphicsSfu 0x14000E40) ∧
    decode 0 = .error (.notGraphicsSfu 0) := by decide

/-- The all-zero-operand word of each row, as the table numbers its bits, through the bytes in memory. -/
theorem test_decode_table_words :
    decodeTableWord 32 0x10000E40 = some (.grArith5 0 0 0) ∧ decodeTableWord 32 0x10001640 = some (.grArith55 0 0 0) ∧
    decodeTableWord 32 0x10001E40 = some (.grPack55 0 0) ∧ decodeTableWord 32 0x10002640 = some (.grClipSub 0 0 0) ∧
    decodeTableWord 32 0x10002E40 = some (.grArith88 0 0 0) ∧ decodeTableWord 32 0x10003640 = some (.grPack88 0 0) ∧
    decodeTableWord 32 0x10003E60 = some .grClipTest ∧ decodeTableWord 32 0x10004640 = some (.grMtcl 0) := by decide

/-- The byte at the lowest address is the most significant (20_memory.md R42). -/
theorem test_bytes_big_endian : bytesOfWord 0x10C40E48 = [0x10, 0xC4, 0x0E, 0x48] := by decide

/-! ### A small state: P(4), P(6) and a word of text at 0x1000 -/

/-- The reset state with two pairs, Gr_R1, and a list of words of text from 0x1000 on, the pc there. -/
def small (p4 p6 : Pair) (g : BitVec 3) (text : List Word) : State :=
  let s := ((State.reset.writePair 4 p4).writePair 6 p6)
  { s with grR1 := g, pc := 0x1000,
           mem := (text.zipIdx.map fun (w, k) =>
             (bytesOfWord w).zipIdx.map fun (b, j) => (0x1000 + 4 * k + j, b)).flatten }

/-- A register after a step, if the step completes. -/
def regAfter (o : Host.Outcome State Fault Refusal) (r : Reg) : Option Word :=
  match o with
  | .next s => some (s.readGR r)
  | .fault _ => none
  | .refused _ => none

/-- Gr_R1, SX, SY and the pc after a step, if the step completes. -/
def controlAfter (o : Host.Outcome State Fault Refusal) : Option (BitVec 3 × BitVec 4 × BitVec 4 × Word) :=
  match o with
  | .next s => some (s.grR1, s.sx, s.sy, s.pc)
  | .fault _ => none
  | .refused _ => none

/-! ### One step of each instruction, expected values from 95_test_vectors.md -/

/-- Section 2.2, GR_ARITH_5, row 0b101, under the mask of specified bits, for every value of the unused ones. -/
theorem test_arith5_mixed (d : BitVec 4) :
    arith5 0b101 d 0x7C1004437BDE03EF 0x0430044314227C10 &&& 0x7FFF7FFF7FFF7FFF = 0x7820008067FC03E0 := by
  revert d; decide

/-- Section 2.2, "carry broken". -/
theorem test_arith5_carry_broken (d : BitVec 4) :
    arith5 0b000 d 0x001F001F03E07C00 0x0001000100200400 &&& 0x7FFF7FFF7FFF7FFF = 0x001F001F03E07C00 := by
  revert d; decide

/-- Section 2.2, GR_ARITH_5_5, row 0b110. -/
theorem test_arith55_mixed (d : BitVec 4) :
    arith55 0b110 d 0x3E004200001FFD55 0x02004600002004AA &&& 0x3FFFFFFF3FFFFFFF = 0x3C0003FF000FF9FF := by
  revert d; decide

/-- Section 2.2, GR_ARITH_5_5, "unused operand bits set". -/
theorem test_arith55_unused_bits (d : BitVec 4) :
    arith55 0b000 d 0xFE004200C01FFD55 0xC2004600C02004AA &&& 0x3FFFFFFF3FFFFFFF = 0x3FF087FF003FFDFF := by
  revert d; decide

/-- Section 2.2, GR_ARITH_8_8, subtract, R and G ignored; t = r1 (R88). -/
theorem test_arith88_subtract :
    regAfter (exec (.grArith88 4 6 4) (small 0xFF80000180001234 0x0080000280000234 0b011 [])) 4 = some 0xFF000000 ∧
    regAfter (exec (.grArith88 4 6 4) (small 0xFF80000180001234 0x0080000280000234 0b011 [])) 5 = some 0x00001000 := by
  decide

/-- Section 2.2, GR_ARITH_8_8, add. -/
theorem test_arith88_add :
    regAfter (exec (.grArith88 4 6 8) (small 0xFF80000180001234 0x0080000280000234 0b110 [])) 8 = some 0xFFFF0003 ∧
    regAfter (exec (.grArith88 4 6 8) (small 0xFF80000180001234 0x0080000280000234 0b110 [])) 9 = some 0xFFFF1468 := by
  decide

/-- Section 2.3, GR_MTCL: the upper 29 bits are ignored. -/
theorem test_mtcl :
    controlAfter (exec (.grMtcl 4) (small 0xFFFFFFFD00000000 0 0 [])) = some (0b101, 0, 0, 0x1004) ∧
    controlAfter (exec (.grMtcl 0) (small 0 0 0b111 [])) = some (0b000, 0, 0, 0x1004) := by decide

/-- Section 2.4, GR_CLIP_SUB, first row: differences and carries without a borrow. -/
theorem test_clip_sub_no_borrow :
    regAfter (exec (.grClipSub 4 6 12) (small 0x00000064000000C8 0x0000000A00000014 0 [])) 12 = some 0x5A ∧
    regAfter (exec (.grClipSub 4 6 12) (small 0x00000064000000C8 0x0000000A00000014 0 [])) 13 = some 0xB4 ∧
    controlAfter (exec (.grClipSub 4 6 12)
      { small 0x00000064000000C8 0x0000000A00000014 0 [] with sx := 0b1010, sy := 0b0101 }) =
        some (0, 0b0101, 0b1011, 0x1004) := by decide

/-- Section 2.4, GR_CLIP_SUB, fifth row: an unsigned comparison, and both values of the open parameter. -/
theorem test_clip_sub_borrow :
    clipCarry 0x80000000 0x7FFFFFFF = true ∧ clipDiff 0x80000000 0x7FFFFFFF = 1 ∧ clipCarry 0 1 = false ∧
    (clipDiff 0 1 = 0 ∨ clipDiff 0 1 = 0xFFFFFFFF) := by
  refine ⟨by decide, by decide, by decide, ?_⟩
  unfold clipDiff
  cases Config.clipSubBorrowResult
  · exact .inl (by decide)
  · exact .inr (by decide)

/-- Section 2.4, GR_CLIP_TEST: SX and SY are kept and PSW.N is the negated predicate. -/
theorem test_clip_test :
    exec .grClipTest { State.reset with sx := 0b1110, sy := 0b1111 } =
      .next { State.reset with sx := 0b1110, sy := 0b1111, pswN := !Config.clipPred 0b1110 0b1111, pc := 4 } := rfl

/-- Section 2.5, GR_PACK_5_5, first row, for every value of the unused bits. -/
theorem test_pack55 (d : BitVec 2) : pack55 d 0x3E087FFF01F08155 &&& 0x7FFF7FFF = 0x7E1F002A := by
  revert d; decide

/-- Section 2.5, GR_PACK_5_5, truncation. -/
theorem test_pack55_truncates (d : BitVec 2) : pack55 d 0x01F07C1F01F07C1F &&& 0x7FFF7FFF = 0 := by
  revert d; decide

/-- Section 2.5, GR_PACK_8_8, and its single destination: an odd t, whose even neighbour is left alone. -/
theorem test_pack88 :
    regAfter (exec (.grPack88 4 7) (small 0x123456789ABCDEF0 0x1111111122222222 0 [])) 7 = some 0x12569ADE ∧
    regAfter (exec (.grPack88 4 7) (small 0x123456789ABCDEF0 0x1111111122222222 0 [])) 6 = some 0x11111111 := by decide

/-- Section 2.6: a step executes GR_MTCL gr4. -/
theorem test_step_executes : controlAfter (step (small 0x0000000500000000 0 0 [0x10804640])) = some (5, 0, 0, 0x1004) := by
  decide

/-- Section 2.6: a word out of scope is passed over where PSW.N is 1. -/
theorem test_step_skips :
    controlAfter (step { small 0 0 0 [0x00000000] with pswN := true }) = some (0, 0, 0, 0x1004) := by decide

/-- The first instruction after reset, loaded at the pc, runs (one word for each row of the table). -/
theorem test_loaded_words_run :
    ([0x10000E40, 0x10001640, 0x10001E40, 0x10002640, 0x10002E40, 0x10003640, 0x10003E60, 0x10004640].all fun w =>
      match step (State.reset.withFetchWord 32 w) with
      | .next _ => true
      | .fault _ => false
      | .refused _ => false) = true := by decide

/-! ### Launch and run (70_reset_and_hazards.md R155, R157) -/

/-- Program P4 of 95_test_vectors.md at the base `b`, with its start state and the given actions of the host. -/
def launchP4 (b : Word) (host : List HostEvent) : Launch where
  base := b
  text := [0x10604640, 0x10C42E48, 0x1100364A]
  pre := { regs := [(3, 1), (4, 0xFF800001), (5, 0x80001234), (6, 0x00800002), (7, 0x80000234)], grR1 := none,
           sxGiven := 0, sx := 0, syGiven := 0b1100, sy := 0b0111 }
  host := host

/-- P4's end state, from a machine whose cells held other values before. -/
theorem test_run_p4 :
    let o := (launchP4 0x1000 []).run (small 0 0 0b110 [])
    controlAfter o = some (0b001, 0, 0b0100, 0x100C) ∧ regAfter o 8 = some 0xFF000000 ∧ regAfter o 9 = some 0x00001000 ∧
      regAfter o 10 = some 0xFF000010 := by decide

/-- A run stops where a step refuses: here at the second word. -/
theorem test_run_stops :
    { launchP4 0x1000 [] with text := [0x10604640, 0x10000C40] }.run State.reset =
      .refused (.undecodable (.notGraphicsSfu 0x10000C40)) := rfl

/-- ODD_PAIR_SPECIFIER: an odd specifier names no pair under the value that the spec takes (D2). -/
theorem test_pair_base : pairBase 31 = none ∧ pairBase 7 = none ∧ pairBase 30 = some 30 ∧ pairBase 0 = some 0 := by decide

/-! ### Witnesses: the hypotheses of each statement can be met -/

theorem test_witness_DecodeOfEncode : (Instr.grPack55 30 31).wellFormed = true := by decide

theorem test_witness_EncodeOfDecode : decode 0x13DE0E5E = .ok (.grArith5 30 30 30) := by decide

theorem test_witness_DecodeRefusesByName :
    (0x14000E40 : Word) &&& 0xFC0007C0 ≠ 0x10000640 ∧
    ((0x10000640 : Word) &&& 0xFC0007C0 = 0x10000640 ∧ ∀ row ∈ tableE2, (0x10000640 : Word) &&& row.mask ≠ row.pattern) ∧
    ((0x11201E4C : Word) &&& 0xFC0007C0 = 0x10000640 ∧
      ∃ row ∈ tableE2, (0x11201E4C : Word) &&& row.mask = row.pattern ∧ (0x11201E4C : Word) &&& row.odd ≠ 0) := by
  refine ⟨by decide, ⟨by decide, by simp [tableE2]⟩, by decide, ?_⟩
  simp [tableE2]

theorem test_witness_even_specifiers : isEven 0 = true ∧ isEven 4 = true ∧ isEven 30 = true ∧ (30 : Reg) ≠ 0 := by decide

theorem test_witness_odd_specifier : ¬(isEven 4 = true ∧ isEven 6 = true ∧ isEven 31 = true) := by decide

/-- The completions with which the statements about a next state are met: every constructor from the reset state. -/
theorem test_witness_exec_completes :
    (∃ s', exec (.grArith5 0 30 30) State.reset = .next s') ∧ (∃ s', exec (.grArith55 4 6 8) State.reset = .next s') ∧
    (∃ s', exec (.grArith88 4 6 0) State.reset = .next s') ∧ (∃ s', exec (.grClipSub 4 8 12) State.reset = .next s') ∧
    (∃ s', exec .grClipTest State.reset = .next s') ∧ (∃ s', exec (.grMtcl 31) State.reset = .next s') ∧
    (∃ s', exec (.grPack55 30 31) State.reset = .next s') ∧ (∃ s', exec (.grPack88 8 0) State.reset = .next s') := by
  refine ⟨?_, ?_, ?_, ?_, ?_, ?_, ?_, ?_⟩ <;> exact ⟨_, rfl⟩

/-- Two machines whose operands differ in unused bits only, for each of the four clauses of UnusedBitsDoNotReachResults. -/
theorem test_witness_UnusedBits_arith5 :
    let s := small 0x7C1004437BDE03EF 0 0 []
    let s' := small 0xFC108443FBDE83EF 0 0 []
    s.readPair 4 ≠ s'.readPair 4 ∧ s.grR1 = s'.grR1 ∧
    (∃ u u', exec (.grArith5 4 6 8) s = .next u ∧ exec (.grArith5 4 6 8) s' = .next u') ∧
    s.readPair 4 &&& 0x7FFF7FFF7FFF7FFF = s'.readPair 4 &&& 0x7FFF7FFF7FFF7FFF ∧
    s.readPair 6 &&& 0x7FFF7FFF7FFF7FFF = s'.readPair 6 &&& 0x7FFF7FFF7FFF7FFF := ⟨by decide, rfl, ⟨_, _, rfl, rfl⟩, by decide⟩

theorem test_witness_UnusedBits_arith55 :
    let s := small 0x3E004200001FFD55 0 0 []
    let s' := small 0xFE004200C01FFD55 0 0 []
    s.readPair 4 ≠ s'.readPair 4 ∧ s.grR1 = s'.grR1 ∧
    (∃ u u', exec (.grArith55 4 6 8) s = .next u ∧ exec (.grArith55 4 6 8) s' = .next u') ∧
    s.readPair 4 &&& 0x3FFFFFFF3FFFFFFF = s'.readPair 4 &&& 0x3FFFFFFF3FFFFFFF ∧
    s.readPair 6 &&& 0x3FFFFFFF3FFFFFFF = s'.readPair 6 &&& 0x3FFFFFFF3FFFFFFF := ⟨by decide, rfl, ⟨_, _, rfl, rfl⟩, by decide⟩

theorem test_witness_UnusedBits_pack55 :
    let s := small 0x3E004200001FFD55 0 0 []
    let s' := small 0xFE004201C01FFD57 0 0 []
    s.readPair 4 ≠ s'.readPair 4 ∧ s.grR1 = s'.grR1 ∧
    (∃ u u', exec (.grPack55 4 8) s = .next u ∧ exec (.grPack55 4 8) s' = .next u') ∧
    s.readPair 4 &&& 0x3E0F83E03E0F83E0 = s'.readPair 4 &&& 0x3E0F83E03E0F83E0 := ⟨by decide, rfl, ⟨_, _, rfl, rfl⟩, by decide⟩

theorem test_witness_UnusedBits_pack88 :
    let s := small 0x123456789ABCDEF0 0 0 []
    let s' := small 0x120056009A00DE00 0 0 []
    s.readPair 4 ≠ s'.readPair 4 ∧ s.grR1 = s'.grR1 ∧
    (∃ u u', exec (.grPack88 4 8) s = .next u ∧ exec (.grPack88 4 8) s' = .next u') ∧
    s.readPair 4 &&& 0xFF00FF00FF00FF00 = s'.readPair 4 &&& 0xFF00FF00FF00FF00 := ⟨by decide, rfl, ⟨_, _, rfl, rfl⟩, by decide⟩

theorem test_witness_FourClipSubsFillShiftRegisters :
    ∃ s1 s2 s3 s4 : State,
      exec (.grClipSub 4 6 12) (small 0x3200000032 0x9600000014 0 []) = .next s1 ∧ exec (.grClipSub 6 4 12) s1 = .next s2 ∧
      exec (.grClipSub 4 4 12) s2 = .next s3 ∧ exec (.grClipSub 6 6 12) s3 = .next s4 := ⟨_, _, _, _, rfl, rfl, rfl, rfl⟩

theorem test_witness_TwoPacksFillAPair :
    isEven 12 = true ∧ ∃ s' s'' : State, exec (.grPack88 4 12) (small 0x123456789ABCDEF0 1 0 []) = .next s' ∧
      exec (.grPack88 6 (12 + 1)) s' = .next s'' := ⟨by decide, _, _, rfl, rfl⟩

theorem test_witness_ControlRegistersAreSeenByTheirReadersOnly :
    (∃ u u', exec (.grArith88 4 6 8) (small 1 2 0 []) = .next u ∧
      exec (.grArith88 4 6 8) { small 1 2 0 [] with sx := 0b1111, sy := 0b0001 } = .next u') ∧
    (∀ r1 r2 t : Reg, Instr.grPack88 4 8 ≠ .grArith5 r1 r2 t ∧ Instr.grPack88 4 8 ≠ .grArith55 r1 r2 t ∧
      Instr.grPack88 4 8 ≠ .grArith88 r1 r2 t) ∧
    (∃ u u', exec (.grPack88 4 8) (small 1 2 0 []) = .next u ∧
      exec (.grPack88 4 8) { small 1 2 0 [] with grR1 := 0b111 } = .next u') :=
  ⟨⟨_, _, rfl, rfl⟩, by simp, _, _, rfl, rfl⟩

theorem test_witness_NoInstructionRaisesAnException : ∃ w : Word, decode w = .ok (.grClipSub 10 4 12) :=
  ⟨0x108A264C, by decide⟩

theorem test_witness_OddSpecifierIsRefused :
    (Instr.grPack88 9 12).wellFormed = false ∧ exec (.grPack88 9 12) State.reset = .refused .oddPairSpecifier := ⟨by decide, rfl⟩

/-- Text that stands at the pc and at the word after it: GR_CLIP_TEST, then a word out of scope. -/
theorem test_witness_ClipTestDecidesTheNextInstruction :
    let s := small 0 0 0 [0x10003E60, 0x00000000]
    s.pc.toNat % 4 = 0 ∧ s.pc.toNat + 8 ≤ 0xFFFFFFFC ∧ s.pswN = false ∧ s.textAt s.pc.toNat 0x10003E60 ∧
      s.textAt (s.pc.toNat + 4) 0x00000000 := by
  refine ⟨by decide, by decide, rfl, ?_, ?_⟩ <;> (intro k hk; interval_cases k <;> decide)

/-- The last pc that can be fetched at, 0xFFFFFFF8, with a word there: executed, and skipped. -/
theorem test_witness_step_at_the_top :
    let s := { State.reset with pc := 0xFFFFFFF8 }.loadWord 0x10604640
    s.pc.toNat % 4 = 0 ∧ s.pc ≠ 0xFFFFFFFC ∧ s.pswN = false ∧ s.textAt s.pc.toNat 0x10604640 ∧
      decode 0x10604640 = .ok (.grMtcl 3) ∧ { s with pswN := true }.textAt s.pc.toNat 0x10604640 := by
  refine ⟨by decide, by decide, rfl, ?_, by decide, ?_⟩ <;> (intro k hk; interval_cases k <;> decide)

/-- A state for each of the four stops of a step, at the values where they meet. -/
theorem test_witness_StepStopsByName :
    step { State.reset with pc := 0xFFFFFFFD } = .refused .misalignedPc ∧
    step { State.reset with pc := 0xFFFFFFFC } = .refused .pcWrap ∧
    step { State.reset with pc := 0xFFFFFFF8 } = .refused .noText ∧
    step (small 0 0 0 [0x00000000]) = .refused (.undecodable (.notGraphicsSfu 0)) ∧
    (small 0 0 0 [0x00000000]).textAt 0x1000 0x00000000 := by
  refine ⟨rfl, rfl, rfl, rfl, ?_⟩
  intro k hk; interval_cases k <;> decide

/-- A text with its last byte missing is no text. -/
theorem test_witness_StepStops_one_byte_missing :
    let s := { small 0 0 0 [0x10604640] with mem := (small 0 0 0 [0x10604640]).mem.take 3 }
    s.readByte (s.pc.toNat + 3) = none ∧ step s = .refused .noText := ⟨rfl, rfl⟩

/-- Steps that complete and change Gr_R1, and SX and SY, and one that executes GR_CLIP_TEST. -/
theorem test_witness_steps_change_control :
    (∃ s', step (small 0x0000000500000000 0 0 [0x10804640]) = .next s' ∧ s'.grR1 ≠ 0) ∧
    (∃ s', step (small 0x0000000500000000 0 0 [0x10C4264C]) = .next s' ∧ s'.sx ≠ 0) ∧
    (∃ s', step (small 0 0 0 [0x10003E60]) = .next s') :=
  ⟨⟨_, rfl, by decide⟩, ⟨_, rfl, by decide⟩, _, rfl⟩

/-- A state that meets the invariant and steps, and runs one step. -/
theorem test_witness_StepKeepsTheInvariant :
    (small 5 0 0 [0x10804640]).Inv ∧ (∃ s', step (small 5 0 0 [0x10804640]) = .next s') ∧
    (∃ s' : State, Host.Core.run core 1 (small 5 0 0 [0x10804640]) = .next s') := ⟨by decide, ⟨_, rfl⟩, _, rfl⟩

theorem test_witness_LoadedWordRunsNext :
    State.reset.pc.toNat % 4 = 0 ∧ State.reset.pc ≠ 0xFFFFFFFC ∧ decode 0x13C0365F = .ok (.grPack88 30 31) := by decide

/-- Launches that meet the hypotheses: the empty text at the last admissible base, and P4 ending at the last admissible pc. -/
theorem test_witness_LaunchMeetsThePremises :
    (∀ l ∈ [{ launchP4 0xFFFFFFFC [] with text := [] }, launchP4 0xFFFFFFF0 []],
      l.base.toNat % 4 = 0 ∧ l.base.toNat + 4 * l.text.length ≤ 0xFFFFFFFC ∧ l.host = []) ∧
    ((launchP4 0xFFFFFFF0 []).pre.regs.map Prod.fst).Nodup := by decide

/-- Each clause of LaunchStopsByName: the three events, a misaligned base, an end one word too far, two ways. -/
theorem test_witness_LaunchStopsByName :
    (launchP4 0x1000 [.unitUnavailable]).run State.reset = .refused (.outsidePremises .unitUnavailable) ∧
    (launchP4 0x1000 [.interrupt]).run State.reset = .refused (.outsidePremises .interrupt) ∧
    (launchP4 0x1000 [.otherUser, .interrupt]).run State.reset = .refused (.outsidePremises .otherUser) ∧
    (launchP4 0xFFFFFFFD []).run State.reset = .refused .misalignedPc ∧
    (launchP4 0xFFFFFFF4 []).run State.reset = .refused .pcWrap ∧
    { launchP4 0xFFFFFFFC [] with text := [0x10604640] }.run State.reset = .refused .pcWrap := ⟨rfl, rfl, rfl, rfl, rfl, rfl⟩

/-- P4 meets every launch premise, with no property of the open parameters named; its words decode. -/
theorem test_witness_launch_premises :
    (∃ u : State, LaunchPremises (launchP4 0xFFFFFFF0 []) (fun _ _ => True)
      ((launchP4 0xFFFFFFF0 []).load (small 0 0 0b110 [])) u) ∧
    ∀ w ∈ (launchP4 0xFFFFFFF0 []).text, ∃ i : Instr, decode w = .ok i := by
  have hl := load_eq (l := launchP4 0xFFFFFFF0 []) (small 0 0 0b110 []) (by decide) (by decide)
  refine ⟨⟨_, ⟨?_, rfl, load_text hl, by decide, by decide, hl, load_cells hl (by decide), trivial⟩⟩, ?_⟩
  · exact ⟨rfl, by decide, by decide⟩
  intro w hw
  fin_cases hw
  exacts [⟨.grMtcl 3, by decide⟩, ⟨.grArith88 4 6 8, by decide⟩, ⟨.grPack88 8 10, by decide⟩]

/-- The fields of a row, and of a reserved word, for each clause of FixedZeroFields. -/
theorem test_witness_FixedZeroFields :
    rowOf (fieldsOf 0x10003E60) = some .grClipTest ∧ rowOf (fieldsOf 0x13E04640) = some (.grMtcl 31) ∧
    rowOf (fieldsOf 0x11401E4D) = some (.grPack55 10 13) ∧ rowOf (fieldsOf 0x13C0365F) = some (.grPack88 30 31) ∧
    (let f := fieldsOf 0x10003E61; f.sub = 7 ∧ ¬(f.r2 = 0 ∧ f.r1 = 0 ∧ f.t = 0)) ∧
    (let f := fieldsOf 0x10604641; f.sub = 8 ∧ ¬(f.r1 = 0 ∧ f.t = 0)) ∧
    (let f := fieldsOf 0x11011E4C; f.sub = 3 ∧ f.r1 ≠ 0) ∧ (let f := fieldsOf 0x101F3640; f.sub = 6 ∧ f.r1 ≠ 0) := by decide

end Sys2Proof.Tests
end

section
/-!
SUPPORT. The fields that a row of Table E2 fixes to zero (30_encoding.md R64).
-/

namespace Sys2Proof

/-- `rowOf` does not read op, sel and sfu, so the fields of a match are those of the instruction, in the family or not. -/
theorem fields_of_rowOf_eq_some {f : Fields} {i : Instr} (h : rowOf f = some i) :
    f.r2 = (encodeFields i).r2 ∧ f.r1 = (encodeFields i).r1 ∧ f.sub = (encodeFields i).sub ∧ f.t = (encodeFields i).t := by
  have key : encodeFields i = { f with op := 4, sel := 3, sfu := Machine.Params.sfuNumber } := encodeFields_rowOf rfl h
  rw [key]
  exact ⟨rfl, rfl, rfl, rfl⟩

/-- The sub value of a match tells which of its fields are zero (R64). -/
theorem zero_fields_of_rowOf_eq_some {f : Fields} {i : Instr} (h : rowOf f = some i) :
    (f.sub = 7 → f.r2 = 0 ∧ f.r1 = 0 ∧ f.t = 0) ∧ (f.sub = 8 → f.r1 = 0 ∧ f.t = 0) ∧
    (f.sub = 3 ∨ f.sub = 6 → f.r1 = 0) := by
  obtain ⟨hr2, hr1, hsub, ht⟩ := fields_of_rowOf_eq_some h
  rw [hr2, hr1, hsub, ht]
  cases i <;> simp [encodeFields]

/-- Settles O48: a match has the fields of its instruction, and its sub value tells which of them are zero. -/
theorem fixedZeroFields : Obligations.FixedZeroFields := by
  intro f
  refine ⟨fun h => ?clipTest, fun r2 h => ?mtcl, fun r2 t h => ?pack, fun hf => ?reserved⟩
  case clipTest =>
    obtain ⟨hr2, hr1, -, ht⟩ := fields_of_rowOf_eq_some h
    exact ⟨hr2, hr1, ht⟩
  case mtcl =>
    obtain ⟨-, hr1, -, ht⟩ := fields_of_rowOf_eq_some h
    exact ⟨hr1, ht⟩
  case pack =>
    obtain h | h := h <;> obtain ⟨-, hr1, -, -⟩ := fields_of_rowOf_eq_some h <;> exact hr1
  case reserved =>
    refine Option.eq_none_iff_forall_ne_some.mpr fun i h => ?_
    obtain ⟨clipTest, mtcl, pack⟩ := zero_fields_of_rowOf_eq_some h
    obtain ⟨hs, hne⟩ | ⟨hs, hne⟩ | ⟨hs, hne⟩ := hf
    · exact hne (clipTest hs)
    · exact hne (mtcl hs)
    · exact hne (pack hs)

end Sys2Proof
end

section
/-!
SUPPORT. No instruction raises an exception (60_exceptions.md R130).
-/

namespace Sys2Proof

/-- A word decodes only to an instruction whose pair specifiers are even (Table E3, D2). -/
theorem wellFormed_of_decode_eq_ok {w : Word} {i : Instr} (h : decode w = .ok i) : i.wellFormed = true := by
  obtain ⟨-, -, hwf⟩ := (decode_eq_ok_iff w i).1 h
  exact hwf

namespace Machine

/-- A well-formed instruction completes in every state, whatever its operands hold. -/
theorem exec_eq_next_of_wellFormed {i : Instr} (h : i.wellFormed = true) (s : State) :
    exec i s = .next (execResult i s) := by
  rw [exec_eq, if_pos h]

/-- An instruction with an odd pair specifier is refused by name, in every state. -/
theorem exec_eq_refused_of_not_wellFormed {i : Instr} (h : ¬ i.wellFormed = true) (s : State) :
    exec i s = .refused .oddPairSpecifier := by
  rw [exec_eq, if_neg h]

/-- An answer of `exec` is a next state or a refusal, never a fault: the proof goes by the two answers and does not use
that the model's fault type is empty. -/
theorem exec_ne_fault (i : Instr) (s : State) (f : Fault) : exec i s ≠ .fault f := by
  by_cases h : i.wellFormed = true
  · rw [exec_eq_next_of_wellFormed h]
    nofun
  · rw [exec_eq_refused_of_not_wellFormed h]
    nofun

end Machine

/-- Settles O27: `exec` answers no fault, and what a word decodes to is well-formed, so it completes in every state. -/
theorem noInstructionRaisesAnException : Obligations.NoInstructionRaisesAnException := by
  intro i s
  refine ⟨Machine.exec_ne_fault i s, ?completes⟩
  rintro ⟨w, hw⟩
  exact ⟨Machine.execResult i s, Machine.exec_eq_next_of_wellFormed (wellFormed_of_decode_eq_ok hw) s⟩

end Sys2Proof
end

section
/-!
SUPPORT. The decoder and the encoder: the two round trips, the rows of Table E2 as masks, the refusals and the Format
rows as numbers (30_encoding.md).
-/

namespace Sys2Proof

open Machine

/-! ### The two round trips -/

theorem fieldsOf_encode (i : Instr) : fieldsOf (encode i) = encodeFields i := fieldsOf_wordOf _

/-- Settles O3: the fields of an instruction's word are its own, in the family and in its row. -/
theorem decodeOfEncode : Obligations.DecodeOfEncode := by
  intro i hwf
  rw [decode_eq_ok_iff, fieldsOf_encode]
  exact ⟨inFamily_encodeFields i, rowOf_encodeFields i, hwf⟩

/-- A word of the family that matches a row is the word of that row's instruction. -/
theorem encode_of_rowOf_eq_some {w : Word} {i : Instr} (hf : inFamily (fieldsOf w) = true)
    (hr : rowOf (fieldsOf w) = some i) : encode i = w := by
  rw [encode, encodeFields_rowOf hf hr, wordOf_fieldsOf]

/-- Settles O4: a row match determines all fields, and the fields determine the word. -/
theorem encodeOfDecode : Obligations.EncodeOfDecode := by
  intro w i h
  obtain ⟨hf, hr, hwf⟩ := (decode_eq_ok_iff w i).1 h
  exact ⟨encode_of_rowOf_eq_some hf hr, hwf⟩

/-- The two round trips in one: the decoder inverts the encoder on well-formed instructions. -/
theorem decode_eq_ok_iff_encode {w : Word} {i : Instr} : decode w = .ok i ↔ i.wellFormed = true ∧ encode i = w := by
  constructor
  · intro h
    exact (encodeOfDecode w i h).symm
  · rintro ⟨hwf, rfl⟩
    exact decodeOfEncode i hwf

/-! ### The three refusals -/

theorem decode_of_not_inFamily {w : Word} (h : ¬ inFamily (fieldsOf w) = true) :
    decode w = .error (.notGraphicsSfu w) := by
  rw [decode, if_neg h]

theorem decode_of_rowOf_eq_none {w : Word} (hf : inFamily (fieldsOf w) = true) (hr : rowOf (fieldsOf w) = none) :
    decode w = .error (.reservedGraphicsSfuEncoding w) := by
  simp only [decode, hf, hr, if_true]

theorem decode_encode_of_not_wellFormed {i : Instr} (h : ¬ i.wellFormed = true) :
    decode (encode i) = .error (.oddPairSpecifier (encode i)) := by
  simp only [decode, fieldsOf_encode, inFamily_encodeFields, rowOf_encodeFields, if_true, if_neg h]

/-! ### The rows of Table E2 as masks -/

theorem specifierAt_eq_extractLsb' (w : Word) (lo : Nat) : specifierAt w lo = w.extractLsb' lo 5 := by
  apply BitVec.eq_of_toNat_eq
  simp [specifierAt, Nat.shiftRight_eq_div_pow]

/-- The instruction of a row with the specifiers that a word has in its fields r1, r2, t. -/
def Machine.TableRow.instrOf (row : TableRow) (w : Word) : Instr :=
  row.instr (fieldsOf w).r1 (fieldsOf w).r2 (fieldsOf w).t

/-- The bit positions of Table E1 are those of the fields. -/
theorem instr_specifierAt (row : TableRow) (w : Word) :
    row.instr (specifierAt w 16) (specifierAt w 21) (specifierAt w 0) = row.instrOf w := by
  simp only [specifierAt_eq_extractLsb']
  rfl

theorem encode_eq_iff {i : Instr} {w : Word} : encode i = w ↔ fieldsOf w = encodeFields i := by
  constructor
  · rintro rfl
    exact fieldsOf_encode i
  · intro h
    rw [encode, ← h, wordOf_fieldsOf]

/-- The mask that fixes op, sub, sel, sfu and n, and the given bits of the specifiers. -/
def rowMask (r2 r1 t : Reg) : Word :=
  wordOf { op := .allOnes 6, r2 := r2, r1 := r1, sub := .allOnes 5, sel := .allOnes 2, sfu := .allOnes 3,
           n := .allOnes 1, t := t }

/-- The mask of the given bits of the specifiers. -/
def specifierMask (r2 r1 t : Reg) : Word :=
  wordOf { op := 0, r2 := r2, r1 := r1, sub := 0, sel := 0, sfu := 0, n := 0, t := t }

theorem and_rowMask_eq_wordOf_iff (w : Word) (r2 r1 t : Reg) (p : Fields) :
    w &&& rowMask r2 r1 t = wordOf p ↔
      (fieldsOf w).op = p.op ∧ (fieldsOf w).r2 &&& r2 = p.r2 ∧ (fieldsOf w).r1 &&& r1 = p.r1 ∧
      (fieldsOf w).sub = p.sub ∧ (fieldsOf w).sel = p.sel ∧ (fieldsOf w).sfu = p.sfu ∧ (fieldsOf w).n = p.n ∧
      (fieldsOf w).t &&& t = p.t := by
  rw [rowMask, and_wordOf_eq_iff]
  simp only [BitVec.and_allOnes]

theorem and_specifierMask_eq_zero_iff (w : Word) (r2 r1 t : Reg) :
    w &&& specifierMask r2 r1 t = 0 ↔
      (fieldsOf w).r1 &&& r1 = 0 ∧ (fieldsOf w).r2 &&& r2 = 0 ∧ (fieldsOf w).t &&& t = 0 := by
  have zero_eq : (0 : Word) = specifierMask 0 0 0 := rfl
  rw [zero_eq, specifierMask, specifierMask, and_wordOf_eq_iff]
  simp [and_left_comm]

theorem isEven_iff_and_one (r : Reg) : isEven r = true ↔ r &&& 1#5 = 0#5 := by
  revert r; decide

theorem and_fullSpecifier (r : Reg) : r &&& 31#5 = r := BitVec.and_allOnes

theorem eq_and_not_iff (r m : Reg) : r = r &&& ~~~m ↔ r &&& m = 0 := by
  revert r m; decide

/-- A row's mask covers `p`, what its instruction's fields have beside the specifiers, and the specifiers that the
instruction does not take; its pattern has zeros in all specifiers. -/
theorem mask_of_mem_tableE2 {row : TableRow} (h : row ∈ tableE2) :
    ∃ (m2 m1 mt : Reg) (p : Fields), row.mask = rowMask m2 m1 mt ∧
      row.pattern = wordOf { p with r2 := 0, r1 := 0, t := 0 } ∧
      ∀ r1 r2 t : Reg, encodeFields (row.instr r1 r2 t) =
        { p with r2 := r2 &&& ~~~m2, r1 := r1 &&& ~~~m1, t := t &&& ~~~mt } := by
  refine ⟨row.mask.extractLsb' 21 5, row.mask.extractLsb' 16 5, row.mask.extractLsb' 0 5,
    encodeFields (row.instr 0 0 0), ?_⟩
  simp only [tableE2, List.mem_cons, List.not_mem_nil, or_false] at h
  obtain rfl | rfl | rfl | rfl | rfl | rfl | rfl | rfl := h
  all_goals exact ⟨rfl, rfl, by simp [encodeFields, and_fullSpecifier]⟩

/-- A row's odd bits are the low bits of the specifiers that must be even (Table E3). -/
theorem odd_of_mem_tableE2 {row : TableRow} (h : row ∈ tableE2) :
    ∃ o2 o1 ot : Reg, row.odd = specifierMask o2 o1 ot ∧
      ∀ r1 r2 t : Reg, (row.instr r1 r2 t).wellFormed = true ↔ r1 &&& o1 = 0 ∧ r2 &&& o2 = 0 ∧ t &&& ot = 0 := by
  refine ⟨row.odd.extractLsb' 21 5, row.odd.extractLsb' 16 5, row.odd.extractLsb' 0 5, ?_⟩
  simp only [tableE2, List.mem_cons, List.not_mem_nil, or_false] at h
  obtain rfl | rfl | rfl | rfl | rfl | rfl | rfl | rfl := h
  all_goals exact ⟨rfl, by simp [Instr.wellFormed, isEven_iff_and_one, and_assoc]⟩

/-- A word matches a row exactly where it is the word of that row's instruction with the word's own specifiers. -/
theorem and_mask_eq_pattern_iff {row : TableRow} (h : row ∈ tableE2) (w : Word) :
    w &&& row.mask = row.pattern ↔ encode (row.instrOf w) = w := by
  obtain ⟨m2, m1, mt, p, hmask, hpattern, hfields⟩ := mask_of_mem_tableE2 h
  rw [encode_eq_iff, TableRow.instrOf, hfields, hmask, hpattern, and_rowMask_eq_wordOf_iff]
  simp only [Fields.ext_iff, eq_and_not_iff]

/-- A word has a 0 in each odd bit of a row exactly where that row's instruction of it is well formed. -/
theorem and_odd_eq_zero_iff {row : TableRow} (h : row ∈ tableE2) (w : Word) :
    w &&& row.odd = 0 ↔ (row.instrOf w).wellFormed = true := by
  obtain ⟨o2, o1, ot, hodd, hwf⟩ := odd_of_mem_tableE2 h
  rw [TableRow.instrOf, hodd, and_specifierMask_eq_zero_iff, hwf]

/-- Every instruction is that of a row, with its own specifiers. -/
theorem exists_row (i : Instr) : ∃ row ∈ tableE2, i = row.instrOf (encode i) := by
  have row_of_index (k : Nat) (hk : k < tableE2.length) (h : i = tableE2[k].instrOf (encode i)) :
      ∃ row ∈ tableE2, i = row.instrOf (encode i) := ⟨tableE2[k], List.getElem_mem hk, h⟩
  simp only [TableRow.instrOf, fieldsOf_encode] at row_of_index ⊢
  cases i
  case grArith5 => exact row_of_index 0 (by decide) rfl
  case grArith55 => exact row_of_index 1 (by decide) rfl
  case grPack55 => exact row_of_index 2 (by decide) rfl
  case grClipSub => exact row_of_index 3 (by decide) rfl
  case grArith88 => exact row_of_index 4 (by decide) rfl
  case grPack88 => exact row_of_index 5 (by decide) rfl
  case grClipTest => exact row_of_index 6 (by decide) rfl
  case grMtcl => exact row_of_index 7 (by decide) rfl

/-- Settles O5: a row's mask selects the words of its instruction, its odd bits the well-formed ones, and decoding
inverts encoding on these. -/
theorem decodeIsTableE2 : Obligations.DecodeIsTableE2 := by
  intro w i
  simp only [instr_specifierAt]
  rw [decode_eq_ok_iff_encode]
  constructor
  · rintro ⟨hwf, rfl⟩
    obtain ⟨row, hrow, hi⟩ := exists_row i
    refine ⟨row, hrow, ?pattern, ?even, hi⟩
    case pattern => rw [and_mask_eq_pattern_iff hrow, ← hi]
    case even => rwa [and_odd_eq_zero_iff hrow, ← hi]
  · rintro ⟨row, hrow, hmask, hodd, rfl⟩
    exact ⟨(and_odd_eq_zero_iff hrow w).1 hodd, (and_mask_eq_pattern_iff hrow w).1 hmask⟩

/-- The mask and match of the family are op = 4, sel = 3 and sfu = 1 (R59). -/
theorem and_familyMask_eq_iff (w : Word) : w &&& 0xFC0007C0 = 0x10000640 ↔ inFamily (fieldsOf w) = true := by
  have mask_eq : (0xFC0007C0 : Word) =
      wordOf { op := .allOnes 6, r2 := 0, r1 := 0, sub := 0, sel := .allOnes 2, sfu := .allOnes 3, n := 0, t := 0 } := rfl
  have match_eq : (0x10000640 : Word) =
      wordOf { op := 4, r2 := 0, r1 := 0, sub := 0, sel := 3, sfu := Params.sfuNumber, n := 0, t := 0 } := rfl
  rw [mask_eq, match_eq, and_wordOf_eq_iff]
  simp only [BitVec.and_allOnes, BitVec.ofNat_eq_ofNat, BitVec.and_zero, true_and, and_true, inFamily,
    Bool.and_eq_true, beq_iff_eq, and_assoc]

/-- A family word that no mask of Table E2 selects matches no row. -/
theorem rowOf_eq_none_of_masks {w : Word} (hf : inFamily (fieldsOf w) = true)
    (h : ∀ row ∈ tableE2, w &&& row.mask ≠ row.pattern) : rowOf (fieldsOf w) = none := by
  refine Option.eq_none_iff_forall_ne_some.mpr fun i hi => ?_
  obtain rfl := encode_of_rowOf_eq_some hf hi
  obtain ⟨row, hrow, hrowi⟩ := exists_row i
  exact h row hrow ((and_mask_eq_pattern_iff hrow _).2 (by rw [← hrowi]))

/-- Settles O6: the family test, the row match and the even specifiers fail in this order. -/
theorem decodeRefusesByName : Obligations.DecodeRefusesByName := by
  intro w
  split_ifs with hfam hrows
  · exact decode_of_not_inFamily (mt (and_familyMask_eq_iff w).2 hfam)
  · have hf := (and_familyMask_eq_iff w).1 (not_not.1 hfam)
    exact decode_of_rowOf_eq_none hf (rowOf_eq_none_of_masks hf hrows)
  · rintro ⟨row, hrow, hmask, hodd⟩
    have henc := (and_mask_eq_pattern_iff hrow w).1 hmask
    have hodd' := mt (and_odd_eq_zero_iff hrow w).2 hodd
    have := decode_encode_of_not_wellFormed hodd'
    rwa [henc] at this

/-! ### Format rows and sample words -/

theorem toNat_append_eq_add {m n : Nat} (x : BitVec m) (y : BitVec n) :
    (x ++ y).toNat = x.toNat * 2 ^ n + y.toNat := by
  rw [BitVec.toNat_append, ← Nat.shiftLeft_add_eq_or_of_lt y.isLt, Nat.shiftLeft_eq]

theorem toNat_wordOf (f : Fields) :
    (wordOf f).toNat =
      formatRow f.op.toNat f.r2.toNat f.r1.toNat f.sub.toNat f.sel.toNat f.sfu.toNat f.n.toNat f.t.toNat := by
  simp only [wordOf, formatRow, toNat_append_eq_add]

/-- Settles O2: a word is the number of its fields, and each instruction's fields are those of its row. -/
theorem formatRowsAsPrinted : Obligations.FormatRowsAsPrinted := by
  intro r1 r2 t
  simp only [encode, toNat_wordOf]
  exact ⟨rfl, rfl, rfl, rfl, rfl, rfl, rfl, rfl⟩

/-- Settles O1: the decoder, run on each word. -/
theorem sampleWordsDecode : Obligations.SampleWordsDecode := by
  unfold Obligations.SampleWordsDecode
  decide

end Sys2Proof
end

section
/-!
SUPPORT. The step: where it stops and completes, what it changes and keeps, and runs of many steps (10_state.md
section 5, 20_memory.md).
-/

namespace Sys2Proof

open Machine

namespace Machine

/-! ### The bytes at the pc -/

/-- At most one word stands at an aligned pc. -/
theorem textAt_unique {s : State} {w w' : Word} (hpc : s.pc.toNat % 4 = 0) (h : s.textAt s.pc.toNat w)
    (h' : s.textAt s.pc.toNat w') : w = w' := by
  rw [textAt_iff hpc] at h h'
  exact Option.some.inj (h.symm.trans h')

/-- Where one of the four bytes is missing there is no word. -/
theorem readWord_eq_none {s : State} {k : Nat} (hpc : s.pc.toNat % 4 = 0) (hk : k < 4)
    (h : s.readByte (s.pc.toNat + k) = none) : s.mem.readWord s.pc = none := by
  refine Option.eq_none_iff_forall_ne_some.mpr fun w hw => ?_
  have hbyte := (Memory.readWord_eq_some_iff _ _ _ hpc).1 hw k hk
  rw [← State.readByte, h] at hbyte
  cases hbyte

/-- Text is read from the memory alone. -/
theorem textAt_congr {s s' : State} (h : s'.mem = s.mem) {a : Nat} {w : Word} : s'.textAt a w ↔ s.textAt a w := by
  simp only [State.textAt, State.readByte, h]

/-! ### Where a step stops and where it completes -/

theorem step_of_fetch_refused {s : State} {r : Refusal} (h : s.fetch = .refused r) : step s = .refused r := by
  simp only [step, h]

theorem fetch_of_misaligned {s : State} (h : s.pc.toNat % 4 ≠ 0) : s.fetch = .refused .misalignedPc := by
  rw [State.fetch, if_pos h]

theorem fetch_of_top {s : State} (hpc : s.pc.toNat % 4 = 0) (h : s.pc = 0xFFFFFFFC) : s.fetch = .refused .pcWrap := by
  rw [State.fetch, if_neg (not_not.2 hpc), if_pos h]

theorem fetch_of_no_word {s : State} (hpc : s.pc.toNat % 4 = 0) (htop : s.pc ≠ 0xFFFFFFFC)
    (h : s.mem.readWord s.pc = none) : s.fetch = .refused .noText := by
  rw [State.fetch, if_neg (not_not.2 hpc), if_neg htop, h]

theorem step_of_decode {s : State} {w : Word} {i : Instr} (hpc : s.pc.toNat % 4 = 0) (htop : s.pc ≠ 0xFFFFFFFC)
    (hn : s.pswN = false) (hw : s.textAt s.pc.toNat w) (hi : decode w = .ok i) : step s = exec i s := by
  rw [step_eq hpc htop hw, if_neg (by simp [hn]), execWord_of_ok hi]

theorem step_of_decode_error {s : State} {w : Word} {e : DecodeError} (hpc : s.pc.toNat % 4 = 0)
    (htop : s.pc ≠ 0xFFFFFFFC) (hn : s.pswN = false) (hw : s.textAt s.pc.toNat w) (he : decode w = .error e) :
    step s = .refused (.undecodable e) := by
  rw [step_eq hpc htop hw, if_neg (by simp [hn]), execWord_of_error he]

theorem step_of_skip {s : State} {w : Word} (hpc : s.pc.toNat % 4 = 0) (htop : s.pc ≠ 0xFFFFFFFC)
    (hn : s.pswN = true) (hw : s.textAt s.pc.toNat w) : step s = .next s.skip := by
  rw [step_eq hpc htop hw, if_pos hn]

end Machine

/-- Settles O30: the rule of an executed word. -/
theorem stepRunsTheDecodedInstruction : Obligations.StepRunsTheDecodedInstruction :=
  fun _ _ _ hpc htop hn hw hi => step_of_decode hpc htop hn hw hi

/-- Settles O31: the rule of a skipped word. -/
theorem skippedWordHasNoEffect : Obligations.SkippedWordHasNoEffect :=
  fun _ _ hpc htop hn hw => step_of_skip hpc htop hn hw

/-- Settles O32: the checks of a fetch in their order, then the decoder's. -/
theorem stepStopsByName : Obligations.StepStopsByName := by
  intro s
  refine ⟨fun h => ?misaligned, fun hpc h => ?top, fun hpc htop => ⟨?noText, fun w e hw hn he => ?undecodable⟩⟩
  case misaligned => exact step_of_fetch_refused (fetch_of_misaligned h)
  case top => exact step_of_fetch_refused (fetch_of_top hpc h)
  case noText =>
    rintro ⟨k, hk, hbyte⟩
    exact step_of_fetch_refused (fetch_of_no_word hpc htop (readWord_eq_none hpc hk hbyte))
  case undecodable => exact step_of_decode_error hpc htop hn hw he

/-- Settles O33: what a completed step did, and that nothing else stops one. -/
theorem stepCompletesExactlyWhere : Obligations.StepCompletesExactlyWhere := by
  intro s
  constructor
  · rintro ⟨s', h⟩
    obtain ⟨hpc, htop, w, hw, ⟨hn, -⟩ | ⟨-, i, hi, -, -⟩⟩ := step_cases h
    · exact ⟨hpc, htop, w, hw, .inl hn⟩
    · exact ⟨hpc, htop, w, hw, .inr ⟨i, hi⟩⟩
  · rintro ⟨hpc, htop, w, hw, h⟩
    by_cases hn : s.pswN = true
    · exact ⟨_, step_of_skip hpc htop hn hw⟩
    · obtain ⟨i, hi⟩ := h.resolve_left hn
      rw [step_of_decode hpc htop (by simpa using hn) hw hi,
        exec_eq_next_of_wellFormed (wellFormed_of_decode_eq_ok hi)]
      exact ⟨_, rfl⟩

/-! ### What every step keeps -/

namespace Machine

/-- Every completed step moves the pc by 4 without wrapping, and keeps the text and register 0's cell. -/
theorem step_keeps {s s' : State} (h : step s = .next s') :
    s'.pc.toNat = s.pc.toNat + 4 ∧ s'.mem = s.mem ∧ s'.regs[0] = s.regs[0] := by
  obtain ⟨hpc, htop, w, -, ⟨-, rfl⟩ | ⟨-, i, -, -, rfl⟩⟩ := step_cases h
  · exact ⟨pc_add_four hpc htop, rfl, rfl⟩
  · obtain ⟨hpc', hmem, hzero⟩ := result_keeps i s
    exact ⟨by rw [hpc', pc_add_four hpc htop], hmem, hzero⟩

end Machine

/-- Settles O34: part of what every step keeps. -/
theorem everyStepMovesThePcByFour : Obligations.EveryStepMovesThePcByFour :=
  fun _ _ h => (step_keeps h).1

/-- Settles O39: the text and register 0's cell are kept, and the pc moves by 4. -/
theorem stepKeepsTheInvariant : Obligations.StepKeepsTheInvariant := by
  rintro s s' ⟨hwf, hpc, hzero⟩ h
  obtain ⟨hpc', hmem, hzero'⟩ := step_keeps h
  exact ⟨by rw [hmem, hwf], by omega, by rw [hzero', hzero]⟩

/-- Settles O38: the reset state has no text, and zero in the pc and in register 0's cell. -/
theorem resetMeetsTheInvariant : Obligations.ResetMeetsTheInvariant :=
  ⟨State.reset_mem_wf, rfl, rfl⟩

/-- Settles O40: by induction on the number of steps. -/
theorem runAdvancesAndKeepsTheText : Obligations.RunAdvancesAndKeepsTheText := by
  intro k
  induction k with
  | zero =>
    intro s s' h
    rw [run_zero] at h
    cases h
    exact ⟨rfl, rfl, id⟩
  | succ k ih =>
    intro s s' h
    obtain ⟨u, hu, hrun⟩ := run_succ_next (M := core) h
    obtain ⟨hpc, hmem, -⟩ := step_keeps hu
    obtain ⟨hpc', hmem', hinv⟩ := ih u s' hrun
    exact ⟨by omega, hmem'.trans hmem, fun hs => hinv (stepKeepsTheInvariant s u hs hu)⟩

/-! ### Which step changes which control register -/

namespace Machine

theorem execResult_grR1 (i : Instr) (s : State) :
    (execResult i s).grR1 = s.grR1 ∨
      ∃ r2 : Reg, i = .grMtcl r2 ∧ (execResult i s).grR1 = field (s.readGR r2) 29 3 := by
  cases i
  case grMtcl r2 => exact .inr ⟨r2, rfl, rfl⟩
  all_goals left; simp [execResult]

theorem execResult_shiftRegisters (i : Instr) (s : State) :
    (execResult i s).sx = s.sx ∧ (execResult i s).sy = s.sy ∨ ∃ r1 r2 t : Reg, i = .grClipSub r1 r2 t := by
  cases i
  case grClipSub r1 r2 t => exact .inr ⟨r1, r2, t, rfl⟩
  all_goals left; simp [execResult]

theorem execResult_pswN (i : Instr) (s : State) :
    (execResult i s).pswN = if i = .grClipTest then !Config.clipPred s.sx s.sy else s.pswN := by
  cases i <;> simp [execResult]

/-- The three bits of Gr_R1 that a move takes, as a number. -/
theorem toNat_field_29_3 (v : Word) : (field v 29 3).toNat = v.toNat % 8 := by
  simp [field]

/-- A step that is no skip executed an instruction, whose word stands at the pc. -/
theorem step_executed {s s' : State} (h : step s = .next s') (hs : s' ≠ s.skip) :
    s.pswN = false ∧ ∃ i : Instr, s.textAt s.pc.toNat (encode i) ∧ s' = execResult i s := by
  obtain ⟨-, -, w, hw, ⟨-, rfl⟩ | ⟨hn, i, hi, -, rfl⟩⟩ := step_cases h
  · exact absurd rfl hs
  · obtain ⟨rfl, -⟩ := encodeOfDecode w i hi
    exact ⟨hn, i, hw, rfl⟩

end Machine

/-- Settles O35: of the executed instructions only GR_MTCL changes Gr_R1. -/
theorem onlyMtclChangesGrR1 : Obligations.OnlyMtclChangesGrR1 := by
  intro s s' h hne
  obtain ⟨hn, i, hw, rfl⟩ := step_executed h (fun e => hne (by rw [e, State.skip_grR1]))
  obtain ⟨r2, rfl, hg⟩ := (execResult_grR1 i s).resolve_left hne
  exact ⟨hn, r2, hw, by rw [hg, toNat_field_29_3]⟩

/-- Settles O36: of the executed instructions only GR_CLIP_SUB changes SX or SY. -/
theorem onlyClipSubChangesShiftRegisters : Obligations.OnlyClipSubChangesShiftRegisters := by
  intro s s' h hne
  obtain ⟨hn, i, hw, rfl⟩ := step_executed h (by rintro rfl; simp at hne)
  obtain ⟨r1, r2, t, rfl⟩ := (execResult_shiftRegisters i s).resolve_left (not_and_or.2 hne)
  exact ⟨hn, r1, r2, t, hw⟩

theorem textAt_clipTest_iff {s : State} {w : Word} {i : Instr} (hpc : s.pc.toNat % 4 = 0)
    (hw : s.textAt s.pc.toNat w) (hi : decode w = .ok i) : s.textAt s.pc.toNat 0x10003E60 ↔ i = .grClipTest := by
  have clipTest : decode 0x10003E60 = .ok .grClipTest := rfl
  constructor
  · intro hw'
    rw [textAt_unique hpc hw hw', clipTest] at hi
    exact (Except.ok.inj hi).symm
  · rintro rfl
    obtain ⟨rfl, -⟩ := encodeOfDecode w _ hi
    exact hw

/-- Settles O37: a skip clears PSW.N, GR_CLIP_TEST sets it from the predicate, and the other instructions keep the 0. -/
theorem onlyClipTestSetsPswN : Obligations.OnlyClipTestSetsPswN := by
  intro s s' h
  obtain ⟨hpc, -, w, hw, ⟨hn, rfl⟩ | ⟨hn, i, hi, -, rfl⟩⟩ := step_cases h
  · simp [hn]
  · rw [execResult_pswN, textAt_clipTest_iff hpc hw hi]
    by_cases hc : i = .grClipTest
    · simp [hc, hn]
    · simp [hc, hn]

/-! ### The state after reset, and a loaded word -/

/-- Settles O41: every field of the reset state is zero, and a fetch finds no byte listed. -/
theorem resetLeavesZeroAndNoText : Obligations.ResetLeavesZeroAndNoText := by
  refine ⟨fun r => ?_, rfl, rfl, rfl, rfl, rfl, fun a => rfl, rfl⟩
  simp [State.readGR, State.reset]

/-- Settles O42: the loaded word reads back at the pc, so the next step executes it; the load writes nothing else. -/
theorem loadedWordRunsNext : Obligations.LoadedWordRunsNext := by
  intro s w i hpc htop hi
  have hload : s.withFetchWord 32 w.toNat = s.loadWord w := by
    rw [State.withFetchWord, tableWord, Nat.mod_eq_of_lt w.isLt, BitVec.ofNat_toNat, BitVec.setWidth_eq]
  have hw : (s.loadWord w).textAt s.pc.toNat w := 
    (textAt_iff (s := s.loadWord w) hpc).2 (Memory.readWord_writeWord _ _ _ hpc)
  rw [hload]
  refine ⟨step_of_decode (s := s.loadWord w) hpc htop rfl hw hi, hw, fun a ha => ?_, fun hwf => ?_,
    rfl, rfl, rfl, rfl, rfl, rfl, rfl⟩
  · exact Memory.read_writeWord_other _ _ _ _ hpc ha
  · exact Memory.wf_writeWord _ _ _ hwf

end Sys2Proof
end

section
/-!
SUPPORT. Registers and pairs, the field operation, bit fields as numbers, and the results of the instructions as updates
of the state they were given (10_state.md, 00_scope.md section 5).
-/

namespace Sys2Proof

open Machine

namespace Machine

/-! ### Register writes depend on the register file alone -/

theorem State.writeGR_regs_congr {s s' : State} (h : s'.regs = s.regs) (r : Reg) (v : Word) :
    (s'.writeGR r v).regs = (s.writeGR r v).regs := by
  by_cases hr : r = 0
  · subst hr
    exact h
  · simp only [State.writeGR_of_ne _ _ hr, h]

theorem State.writePair_regs_congr {s s' : State} (h : s'.regs = s.regs) (r : Reg) (v : Pair) :
    (s'.writePair r v).regs = (s.writePair r v).regs := by
  rw [State.writePair_def, State.writePair_def]
  exact State.writeGR_regs_congr (State.writeGR_regs_congr h _ _) _ _

@[simp] theorem State.readGR_advancePc (s : State) (r : Reg) : s.advancePc.readGR r = s.readGR r := rfl
@[simp] theorem State.readGR_takeDraw (s : State) (r : Reg) : s.takeDraw.readGR r = s.readGR r := rfl
@[simp] theorem State.readGR_shiftOutcodes (s : State) (a b : Pair) (r : Reg) :
    (s.shiftOutcodes a b).readGR r = s.readGR r := rfl

/-- A register write reaches no register but its own, and never register 0. -/
theorem State.readGR_writeGR_other (s : State) {r k : Reg} (v : Word) (h : k = 0 ∨ k ≠ r) :
    (s.writeGR r v).readGR k = s.readGR k := by
  rw [State.readGR_writeGR]
  split_ifs with h0 hr
  · rw [h0, State.readGR_zero]
  · exact absurd hr (h.resolve_left h0)
  · rfl

/-- A pair write reaches no register but its own two, and never register 0. -/
theorem State.readGR_writePair_other (s : State) {r k : Reg} (v : Pair) (h : k = 0 ∨ k ≠ r ∧ k ≠ r + 1) :
    (s.writePair r v).readGR k = s.readGR k := by
  rw [State.writePair_def, State.readGR_writeGR_other _ _ (h.imp_right And.right),
    State.readGR_writeGR_other _ _ (h.imp_right And.left)]

/-! ### Halves and bit fields as numbers -/

theorem toNat_highHalf (v : Pair) : (highHalf v).toNat = v.toNat / 2 ^ 32 := by
  have := v.isLt
  simp only [highHalf, BitVec.extractLsb'_toNat, Nat.shiftRight_eq_div_pow]
  omega

theorem toNat_lowHalf (v : Pair) : (lowHalf v).toNat = v.toNat % 2 ^ 32 := by
  simp only [lowHalf, BitVec.extractLsb'_toNat, Nat.shiftRight_zero]

theorem fieldVal_high (v : Pair) : fieldVal v 0 31 = (highHalf v).toNat :=
  fieldVal_eq v 0 31 32 (by omega) rfl (by omega)

theorem fieldVal_low (v : Pair) : fieldVal v 32 63 = (lowHalf v).toNat :=
  fieldVal_eq v 32 63 32 (by omega) rfl (by omega)

/-- A field of one bit is that bit. -/
theorem decide_fieldVal_eq_one {W : Nat} (v : BitVec W) (a : Nat) :
    decide (fieldVal v a a = 1) = v.getLsbD (W - 1 - a) := by
  rw [BitVec.getLsbD, Nat.testBit_eq_decide_div_mod_eq, fieldVal, Nat.add_sub_cancel_left, pow_one]

/-- A field that is the saturating operation of two others, as numbers (00_scope.md R9). -/
theorem fieldVal_eq_satVal {W W' : Nat} {res : BitVec W} {x y : BitVec W'} {sel : Bool} {i a w j b : Nat}
    (h : field res i w = satOp sel (field x a w) (field y a w)) (hj : j + 1 = i + w) (hb : b + 1 = a + w)
    (hW : j < W) (hW' : b < W') : fieldVal res i j = satVal sel w (fieldVal x a b) (fieldVal y a b) := by
  rw [fieldVal_eq res i j w (by omega) (by omega) hW, fieldVal_eq x a b w (by omega) (by omega) hW',
    fieldVal_eq y a b w (by omega) (by omega) hW', h, toNat_satOp]

/-- The upper bits of a field are its quotient (43_pack.md, "integer part"). -/
theorem toNat_field_eq_fieldVal_div {W : Nat} (v : BitVec W) {a w b m : Nat} (hb : b + 1 = a + w + m) (hW : b < W) :
    (field v a w).toNat = fieldVal v a b / 2 ^ m := by
  have hw : b + 1 - a = m + w := by omega
  have hs : W - a - w = W - 1 - b + m := by omega
  rw [fieldVal, field, BitVec.extractLsb'_toNat, Nat.shiftRight_eq_div_pow, hw, hs, pow_add, pow_add,
    ← Nat.div_div_eq_div_mul, Nat.mod_mul_right_div_self]

/-- A field that is the upper bits of another, as numbers. -/
theorem fieldVal_eq_div {W W' : Nat} {res : BitVec W} {v : BitVec W'} {i a w j b : Nat} (m : Nat)
    (h : field res i w = field v a w) (hj : j + 1 = i + w) (hb : b + 1 = a + w + m) (hW : j < W) (hW' : b < W') :
    fieldVal res i j = fieldVal v a b / 2 ^ m := by
  rw [fieldVal_eq res i j w (by omega) (by omega) hW, h, toNat_field_eq_fieldVal_div v hb hW']

/-- A field of the upper half of a pair value. -/
theorem field_append_high (x y : Word) (a w : Nat) (h : a + w ≤ 32) : field (x ++ y : Pair) a w = field x a w := by
  have hx : field (x ++ y : Pair) 0 32 = x := field_append2 x y 0 (by omega)
  have hf := field_field (x ++ y : Pair) 0 32 a w (by omega) h
  rw [hx, Nat.zero_add] at hf
  exact hf.symm

/-- A field of the lower half of a pair value. -/
theorem field_append_low (x y : Word) (a w : Nat) (h : a + w ≤ 32) :
    field (x ++ y : Pair) (32 + a) w = field y a w := by
  have hy : field (x ++ y : Pair) 32 32 = y := field_append2 x y 1 (by omega)
  have hf := field_field (x ++ y : Pair) 32 32 a w (by omega) h
  rw [hy] at hf
  exact hf.symm

/-- A field of a pair value's lower half, in the half's own numbering. -/
theorem field_lowHalf (v : Pair) (a w : Nat) (h : a + w ≤ 32) : field (lowHalf v) a w = field v (32 + a) w :=
  field_field v 32 32 a w (by omega) h

/-! ### The next states as updates of the state given -/

theorem advancePc_writePair (s : State) (t : Reg) (v : Pair) :
    (s.writePair t v).advancePc = { s.writePair t v with pc := s.pc + 4 } := by
  simp [State.advancePc]

theorem advancePc_writeGR (s : State) (t : Reg) (v : Word) :
    (s.writeGR t v).advancePc = { s.writeGR t v with pc := s.pc + 4 } := by
  simp [State.advancePc]

theorem advancePc_takeDraw_writePair (s : State) (t : Reg) (v : Pair) :
    (s.takeDraw.writePair t v).advancePc = { s.writePair t v with pc := s.pc + 4, draws := s.draws + 1 } := by
  simp [State.advancePc, State.writePair_regs_congr (State.takeDraw_regs s)]

theorem advancePc_takeDraw_writeGR (s : State) (t : Reg) (v : Word) :
    (s.takeDraw.writeGR t v).advancePc = { s.writeGR t v with pc := s.pc + 4, draws := s.draws + 1 } := by
  simp [State.advancePc, State.writeGR_regs_congr (State.takeDraw_regs s)]

theorem advancePc_shiftOutcodes_writePair (s : State) (t : Reg) (a b v : Pair) :
    ((s.shiftOutcodes a b).writePair t v).advancePc =
      { s.writePair t v with sx := (s.shiftOutcodes a b).sx, sy := (s.shiftOutcodes a b).sy, pc := s.pc + 4 } := by
  simp [State.advancePc, State.writePair_regs_congr (State.shiftOutcodes_regs s a b)]

end Machine

/-! ### Registers, pairs and the field operation -/

/-- Settles O8: the halves as quotient and remainder, and the reads after a pair write. -/
theorem pairIsTwoRegisters : Obligations.PairIsTwoRegisters := by
  intro s r k v hr
  refine ⟨?number, ?write, fun h0 => ?readBack⟩
  case number => rw [State.readPair_def, toNat_append_eq_add]
  case write =>
    have high : highHalf v = BitVec.ofNat 32 (v.toNat / 2 ^ 32) := by
      rw [← toNat_highHalf, BitVec.ofNat_toNat, BitVec.setWidth_eq]
    have low : lowHalf v = BitVec.ofNat 32 v.toNat := by
      apply BitVec.eq_of_toNat_eq
      rw [toNat_lowHalf, BitVec.toNat_ofNat]
    rw [State.readGR_writePair s r k v hr, high, low]
  case readBack => rw [State.readPair_writePair s r v hr, if_neg h0, highHalf_append_lowHalf]

/-- Settles O9: the operation on numbers, `satVal`, has each of the laws. -/
theorem saturationLaws : Obligations.SaturationLaws := by
  intro w a b
  have ha : a.toNat ≤ 2 ^ w - 1 := Nat.le_sub_one_of_lt a.isLt
  have hb : b.toNat ≤ 2 ^ w - 1 := Nat.le_sub_one_of_lt b.isLt
  simp only [← BitVec.toNat_inj, toNat_satOp, satVal, BitVec.toNat_allOnes, BitVec.ofNat_eq_ofNat, BitVec.toNat_zero,
    Bool.false_eq_true, if_true, if_false]
  refine ⟨?_, ?_, ?_, ?_, ?_, ?_, ?_, ?_⟩
  · split_ifs <;> omega
  · split_ifs <;> omega
  all_goals omega

end Sys2Proof
end

section
/-!
SUPPORT. The graphics arithmetic family (40_arith.md) and register 0 as a destination (10_state.md section 1).
-/

namespace Sys2Proof

open Machine

/-- Settles O10: the result's fields, whatever is drawn for its unused bits. -/
theorem grArith5Result : Obligations.GrArith5Result := by
  intro r1 r2 t s h1 h2 ht
  refine ⟨arith5 s.grR1 (s.draw.extractLsb' 0 4) (s.readPair r1) (s.readPair r2), fun h hh => ?fields, ?next⟩
  case fields =>
    obtain ⟨red, green, blue⟩ := field_arith5 s.grR1 (s.draw.extractLsb' 0 4) (s.readPair r1) (s.readPair r2) h hh
    exact ⟨fieldVal_eq_satVal red rfl rfl (by omega) (by omega), fieldVal_eq_satVal green rfl rfl (by omega) (by omega),
      fieldVal_eq_satVal blue rfl rfl (by omega) (by omega)⟩
  case next =>
    rw [exec_eq_next_of_wellFormed (by simp [Instr.wellFormed, h1, h2, ht]), ← advancePc_takeDraw_writePair]
    rfl

/-- Settles O11: the result's fields, whatever is drawn for its unused bits. -/
theorem grArith55Result : Obligations.GrArith55Result := by
  intro r1 r2 t s h1 h2 ht
  refine ⟨arith55 s.grR1 (s.draw.extractLsb' 0 4) (s.readPair r1) (s.readPair r2), fun k hk => ?fields, ?next⟩
  case fields =>
    obtain ⟨red, green, blue⟩ := field_arith55 s.grR1 (s.draw.extractLsb' 0 4) (s.readPair r1) (s.readPair r2) k hk
    exact ⟨fieldVal_eq_satVal red rfl rfl (by omega) (by omega), fieldVal_eq_satVal green rfl rfl (by omega) (by omega),
      fieldVal_eq_satVal blue rfl rfl (by omega) (by omega)⟩
  case next =>
    rw [exec_eq_next_of_wellFormed (by simp [Instr.wellFormed, h1, h2, ht]), ← advancePc_takeDraw_writePair]
    rfl

/-- The word of GR_ARITH_8_8, in the numbers of Table E1. -/
theorem ofNat_eq_encode_grArith88 (r1 r2 t : Reg) :
    BitVec.ofNat 32 (0x10002E40 + r2.toNat * 2 ^ 21 + r1.toNat * 2 ^ 16 + t.toNat) = encode (.grArith88 r1 r2 t) := by
  obtain ⟨-, -, hrow, -⟩ := formatRowsAsPrinted r1 r2 t
  rw [← BitVec.setWidth_eq (encode (.grArith88 r1 r2 t)), ← BitVec.ofNat_toNat, hrow]
  congr 1
  simp only [formatRow]
  omega

theorem exec_grArith88 {r1 r2 t : Reg} (h1 : isEven r1 = true) (h2 : isEven r2 = true) (ht : isEven t = true)
    (s : State) :
    exec (.grArith88 r1 r2 t) s =
      .next { s.writePair t (arith88 s.grR1 (s.readPair r1) (s.readPair r2)) with pc := s.pc + 4 } := by
  rw [exec_eq_next_of_wellFormed (by simp [Instr.wellFormed, h1, h2, ht]), ← advancePc_writePair]
  rfl

/-- Settles O12: the word is the encoder's, and each field of the result is selected by Gr_R1.B. -/
theorem grArith88Result : Obligations.GrArith88Result := by
  intro r1 r2 t h1 h2 ht
  refine ⟨?decodes, fun s => ⟨_, fun h hh => ?fields, exec_grArith88 h1 h2 ht s⟩⟩
  case decodes =>
    rw [ofNat_eq_encode_grArith88]
    exact decodeOfEncode _ (by simp [Instr.wellFormed, h1, h2, ht])
  case fields => exact fieldVal_eq_satVal (field_arith88 _ _ _ h hh) rfl rfl (by omega) (by omega)

/-- Settles O28: the refusal of a term that is not well formed. -/
theorem oddSpecifierIsRefused : Obligations.OddSpecifierIsRefused :=
  fun _ s h => exec_eq_refused_of_not_wellFormed (by simp [h]) s

/-- Settles O43: the instruction is not well formed, so its word and its term are both refused. -/
theorem grArith88OddSpecifierIsRefused : Obligations.GrArith88OddSpecifierIsRefused := by
  intro r1 r2 t hodd
  have hwf : ¬ (Instr.grArith88 r1 r2 t).wellFormed = true := by
    simpa only [Instr.wellFormed, namesPair_eq, Bool.and_eq_true, and_assoc] using hodd
  rw [ofNat_eq_encode_grArith88]
  exact ⟨decode_encode_of_not_wellFormed hwf, fun s => exec_eq_refused_of_not_wellFormed hwf s⟩

/-- Settles O7: a write of register 0 is none, so a pack's result is lost, and of a pair's result GR[1] takes its half. -/
theorem registerZeroDiscardsResults : Obligations.RegisterZeroDiscardsResults := by
  intro r1 r2 s h1 h2
  refine ⟨s.readGR_zero, ?pack88, ?pack55, _, exec_grArith88 h1 h2 rfl s, fun h hh => ?fields⟩
  case pack88 => exact exec_eq_next_of_wellFormed (by simp [Instr.wellFormed, h2]) s
  case pack55 => exact exec_eq_next_of_wellFormed (by simp [Instr.wellFormed, h2]) s
  case fields =>
    have hlow := field_lowHalf (arith88 s.grR1 (s.readPair r1) (s.readPair r2)) (16 * h) 16 (by omega)
    have hi : 32 + 16 * h = 16 * (h + 2) := by omega
    rw [hi, field_arith88 _ _ _ (h + 2) (by omega)] at hlow
    exact fieldVal_eq_satVal hlow rfl rfl (by omega) (by omega)

/-- Settles O14: a result is a pair write, which reaches no other register. -/
theorem arithFrame : Obligations.ArithFrame := by
  rintro i r1 r2 t s s' (rfl | rfl | rfl) h
  all_goals
    obtain ⟨-, rfl⟩ := exec_next h
    refine ⟨by simp [execResult, State.sameControl, State.readByte], fun k hk => ?_⟩
    simp [execResult, State.readGR_writePair_other _ _ hk]

end Sys2Proof
end

section
/-!
SUPPORT. The clip family (41_clip.md) and the move to Gr_R1 (42_mtcl.md).
-/

namespace Sys2Proof

open Machine

namespace Machine

/-- What a subtraction of two pairs shifts into SX, by the registers of the pairs. -/
theorem clipCarry_highHalf_readPair (s : State) (a b : Reg) :
    clipCarry (highHalf (s.readPair a)) (highHalf (s.readPair b)) =
      decide ((s.readGR b).toNat ≤ (s.readGR a).toNat) := by
  simp only [State.readPair_def, highHalf_append, clipCarry_eq]

/-- What a subtraction of two pairs shifts into SY, by the registers of the pairs. -/
theorem clipCarry_lowHalf_readPair (s : State) (a b : Reg) :
    clipCarry (lowHalf (s.readPair a)) (lowHalf (s.readPair b)) =
      decide ((s.readGR (b + 1)).toNat ≤ (s.readGR (a + 1)).toNat) := by
  simp only [State.readPair_def, lowHalf_append, clipCarry_eq]

/-- A GR_CLIP_SUB that completes shifts its two carries in. -/
theorem shiftRegisters_of_clipSub {a b t : Reg} {s s' : State} (h : exec (.grClipSub a b t) s = .next s') :
    s'.sx = shiftIn s.sx (decide ((s.readGR b).toNat ≤ (s.readGR a).toNat)) ∧
    s'.sy = shiftIn s.sy (decide ((s.readGR (b + 1)).toNat ≤ (s.readGR (a + 1)).toNat)) := by
  obtain ⟨-, rfl⟩ := exec_next h
  simp only [execResult, State.advancePc_sx, State.advancePc_sy, State.writePair_sx, State.writePair_sy,
    State.shiftOutcodes_sx, State.shiftOutcodes_sy, clipCarry_highHalf_readPair, clipCarry_lowHalf_readPair, and_self]

/-- A GR_CLIP_TEST whose predicate holds changes the pc alone, where PSW.N was 0. -/
theorem execResult_clipTest_of_holds {s : State} (hn : s.pswN = false) (hp : Config.clipPred s.sx s.sy = true) :
    execResult .grClipTest s = { s with pc := s.pc + 4 } := by
  simp [execResult, State.advancePc, hp, hn]

/-- After a GR_CLIP_TEST whose predicate does not hold a skip leaves the state as it was, but for the pc. -/
theorem skip_execResult_clipTest {s : State} (hn : s.pswN = false) :
    (execResult .grClipTest s).skip = { s with pc := s.pc + 8 } := by
  have hpc : s.pc + 4#32 + 4#32 = s.pc + 8#32 := BitVec.add_assoc _ _ _
  simp [execResult, State.skip, State.advancePc, hn, hpc]

end Machine

/-- Settles O15: each half is the clipped difference of the operands' halves, and each register takes its half's carry. -/
theorem grClipSubResult : Obligations.GrClipSubResult := by
  intro r1 r2 t s h1 h2 ht
  refine ⟨clipSub (s.readPair r1) (s.readPair r2), (s.shiftOutcodes (s.readPair r1) (s.readPair r2)).sx,
    (s.shiftOutcodes (s.readPair r1) (s.readPair r2)).sy, ?halves, ?sx, ?sy, ?next⟩
  case halves =>
    rintro a (rfl | rfl)
    · rw [fieldVal_high, fieldVal_high, fieldVal_high, clipSub, highHalf_append, toNat_clipDiff]
    · rw [fieldVal_low, fieldVal_low, fieldVal_low, clipSub, lowHalf_append, toNat_clipDiff]
  case sx => simp only [State.shiftOutcodes_sx, toNat_shiftIn, clipCarry_eq, decide_eq_true_eq, fieldVal_high]
  case sy => simp only [State.shiftOutcodes_sy, toNat_shiftIn, clipCarry_eq, decide_eq_true_eq, fieldVal_low]
  case next =>
    rw [exec_eq_next_of_wellFormed (by simp [Instr.wellFormed, h1, h2, ht]), ← advancePc_shiftOutcodes_writePair]
    rfl

/-- Settles O16: the complement is 2^32 - 1 - b, so the sum is a - b + 2^32, which reaches bit 32 where b ≤ a. -/
theorem clipCarryIsAdderCarry : Obligations.ClipCarryIsAdderCarry := by
  intro a b
  have ha := a.isLt
  have hb := b.isLt
  have sum : (BitVec.setWidth 33 a + BitVec.setWidth 33 (~~~b) + 1).toNat = a.toNat + (2 ^ 32 - 1 - b.toNat) + 1 := by
    have one : (1 : BitVec 33).toNat = 1 := rfl
    simp only [BitVec.toNat_add, BitVec.toNat_setWidth, BitVec.toNat_not, one]
    omega
  rw [clipCarry_eq, BitVec.getLsbD, sum, Nat.testBit_eq_decide_div_mod_eq]
  congr 1
  simp only [eq_iff_iff]
  omega

/-- Settles O17: each subtraction shifts its carries in, and four shifts replace the whole content. -/
theorem fourClipSubsFillShiftRegisters : Obligations.FourClipSubsFillShiftRegisters := by
  intro a b t s0 s1 s2 s3 s4 h1 h2 h3 h4
  obtain ⟨sx1, sy1⟩ := shiftRegisters_of_clipSub h1
  obtain ⟨sx2, sy2⟩ := shiftRegisters_of_clipSub h2
  obtain ⟨sx3, sy3⟩ := shiftRegisters_of_clipSub h3
  obtain ⟨sx4, sy4⟩ := shiftRegisters_of_clipSub h4
  constructor
  · rw [sx4, sx3, sx2, sx1, toNat_shiftIn_four]
    simp only [decide_eq_true_eq]
  · rw [sy4, sy3, sy2, sy1, toNat_shiftIn_four]
    simp only [decide_eq_true_eq]

/-- Settles O18: the result is a pair write, which reaches no other register. -/
theorem clipSubFrame : Obligations.ClipSubFrame := by
  intro r1 r2 t s s' h
  obtain ⟨-, rfl⟩ := exec_next h
  refine ⟨by simp [execResult], by simp [execResult], by simp [execResult, State.readByte], fun k hk => ?_⟩
  simp [execResult, State.readGR_writePair_other _ _ hk]

/-- Settles O19: PSW.N is the predicate's negation. -/
theorem grClipTestResult : Obligations.GrClipTestResult :=
  fun s => ⟨!Config.clipPred s.sx s.sy, by rw [Bool.not_eq_true'], rfl⟩

/-- Settles O20: two steps; the second finds PSW.N as the test left it, and the text unchanged. -/
theorem clipTestDecidesTheNextInstruction : Obligations.ClipTestDecidesTheNextInstruction := by
  intro s w hpc hend hn htest hw
  have below_top {x : Word} (h : x.toNat < 0xFFFFFFFC) : x ≠ 0xFFFFFFFC := by
    rintro rfl
    exact absurd h (by decide)
  have htop : s.pc ≠ 0xFFFFFFFC := below_top (by omega)
  have hpc4 := pc_add_four hpc htop
  have hfirst : step s = .next (execResult .grClipTest s) := step_of_decode hpc htop hn htest rfl
  have hpcu : (s.pc + 4).toNat % 4 = 0 := by omega
  have htopu : s.pc + 4 ≠ 0xFFFFFFFC := below_top (by omega)
  have hwu {u : State} (hu : u.pc = s.pc + 4) (hm : u.mem = s.mem) : u.textAt u.pc.toNat w := by
    rw [textAt_congr hm, hu, hpc4]
    exact hw
  refine ⟨_, hfirst, fun hp => ⟨fun i hi => ?executed, fun e he => ?refused⟩, fun hp => ?skipped⟩
  case executed =>
    rw [execResult_clipTest_of_holds hn hp]
    exact step_of_decode hpcu htopu hn (hwu rfl rfl) hi
  case refused =>
    rw [execResult_clipTest_of_holds hn hp]
    exact step_of_decode_error hpcu htopu hn (hwu rfl rfl) he
  case skipped =>
    rw [← skip_execResult_clipTest hn]
    refine step_of_skip hpcu htopu ?_ (hwu rfl rfl)
    simp [execResult, hp]

/-- The word of GR_MTCL, in the numbers of Table E1. -/
theorem ofNat_eq_encode_grMtcl (r2 : Reg) : BitVec.ofNat 32 (0x10004640 + r2.toNat * 2 ^ 21) = encode (.grMtcl r2) := by
  obtain ⟨-, -, -, -, -, hrow, -⟩ := formatRowsAsPrinted 0 r2 0
  rw [← BitVec.setWidth_eq (encode (.grMtcl r2)), ← BitVec.ofNat_toNat, hrow]
  congr 1
  simp only [formatRow]
  omega

/-- Settles O21: the three bits taken are the source's bits 29, 30 and 31. -/
theorem grMtclResult : Obligations.GrMtclResult := by
  intro r2 s
  rw [ofNat_eq_encode_grMtcl]
  refine ⟨decodeOfEncode _ rfl, field (s.readGR r2) 29 3, rfl, toNat_field_29_3 _, ?_, ?_, ?_, ?zero⟩
  case zero =>
    rintro rfl
    rfl
  all_goals
    rw [decide_fieldVal_eq_one]
    simp [selectBit, field]

/-- Settles O22: neither result writes a register or the text. -/
theorem mtclAndClipTestFrame : Obligations.MtclAndClipTestFrame := by
  rintro i r2 s s' (rfl | rfl) h
  all_goals
    obtain ⟨-, rfl⟩ := exec_next h
    exact ⟨fun k => rfl, fun a => rfl, rfl, rfl, by simp [execResult], by simp [execResult]⟩

end Sys2Proof
end

section
/-!
SUPPORT. The pack family (43_pack.md).
-/

namespace Sys2Proof

open Machine

/-- Settles O23: each result field is the upper five bits of a ten-bit field. -/
theorem grPack55Result : Obligations.GrPack55Result := by
  intro r2 t s h2
  refine ⟨pack55 (s.draw.extractLsb' 0 2) (s.readPair r2), fun k hk => ?fields, ?next⟩
  case fields =>
    obtain ⟨red, green, blue⟩ := field_pack55 (s.draw.extractLsb' 0 2) (s.readPair r2) k hk
    exact ⟨fieldVal_eq_div 5 red rfl rfl (by omega) (by omega), fieldVal_eq_div 5 green rfl rfl (by omega) (by omega),
      fieldVal_eq_div 5 blue rfl rfl (by omega) (by omega)⟩
  case next =>
    rw [exec_eq_next_of_wellFormed (by simp [Instr.wellFormed, h2]), ← advancePc_takeDraw_writeGR]
    rfl

/-- Settles O24: each result byte is the upper eight bits of a sixteen-bit field. -/
theorem grPack88Result : Obligations.GrPack88Result := by
  intro r2 t s h2
  refine ⟨pack88 (s.readPair r2), fun k hk => ?fields, ?next⟩
  case fields => exact fieldVal_eq_div 8 (field_pack88 _ k hk) rfl rfl (by omega) (by omega)
  case next =>
    rw [exec_eq_next_of_wellFormed (by simp [Instr.wellFormed, h2]), ← advancePc_writeGR]
    rfl

/-- What pair t reads after two packs into its registers: the second leaves the first where it is. -/
theorem readPair_of_two_packs {a b t : Reg} {s s' s'' : State} (ht : isEven t = true)
    (h1 : exec (.grPack88 a t) s = .next s') (h2 : exec (.grPack88 b (t + 1)) s' = .next s'') :
    s''.readPair t = (if t = 0 then 0 else pack88 (s.readPair a)) ++ pack88 (s'.readPair b) := by
  obtain ⟨hne, hne0⟩ := isEven_succ ht
  obtain ⟨-, hs'⟩ := exec_next h1
  obtain ⟨-, hs''⟩ := exec_next h2
  have hodd : s''.readGR (t + 1) = pack88 (s'.readPair b) := by
    rw [hs'', execResult, State.readGR_advancePc, State.readGR_writeGR, if_neg hne0, if_pos rfl]
  have heven : s''.readGR t = if t = 0 then 0 else pack88 (s.readPair a) := by
    rw [hs'', execResult, State.readGR_advancePc, State.readGR_writeGR_other _ _ (.inr hne.symm), hs', execResult,
      State.readGR_advancePc, State.readGR_writeGR, if_pos rfl]
  rw [State.readPair_def, heven, hodd]

/-- Settles O25: the fields of the pair are the fields of its registers, and those are packed bytes. -/
theorem twoPacksFillAPair : Obligations.TwoPacksFillAPair := by
  intro a b t s s' s'' ht h1 h2 k hk
  rw [readPair_of_two_packs ht h1 h2]
  constructor
  · split_ifs with h0
    · rw [fieldVal_eq _ (8 * k) (8 * k + 7) 8 (by omega) (by omega) (by omega), field_append_high _ _ _ _ (by omega)]
      simp [field]
    · exact fieldVal_eq_div 8 ((field_append_high _ _ _ _ (by omega)).trans (field_pack88 _ k hk)) rfl rfl (by omega)
        (by omega)
  · exact fieldVal_eq_div 8 ((field_append_low _ _ _ _ (by omega)).trans (field_pack88 _ k hk)) rfl rfl (by omega)
      (by omega)

/-- Settles O26: a result is a register write, which reaches no other register. -/
theorem packFrame : Obligations.PackFrame := by
  rintro i r2 t s s' (rfl | rfl) h
  all_goals
    obtain ⟨-, rfl⟩ := exec_next h
    refine ⟨by simp [execResult, State.sameControl, State.readByte], fun k hk => ?_⟩
    simp [execResult, State.readGR_writeGR_other _ _ hk]

end Sys2Proof
end

section
/-!
SUPPORT. What cannot be seen: unused operand bits (40_arith.md section 5, 43_pack.md), and the control registers of other
instructions (10_state.md section 7).
-/

namespace Sys2Proof

open Machine

namespace Machine

theorem field_and {W : Nat} (v m : BitVec W) (a w : Nat) : field (v &&& m) a w = field v a w &&& field m a w :=
  BitVec.extractLsb'_and

/-- A mask that covers a field hides nothing of it. -/
theorem field_and_of_covered {W : Nat} (v : BitVec W) {m : BitVec W} {a w : Nat} (h : field m a w = .allOnes w) :
    field (v &&& m) a w = field v a w := by
  rw [field_and, h, BitVec.and_allOnes]

/-- The mask of a triplet's colour fields: all but the unused bits above them (Tables A1, A2). -/
def colourMask (u w : Nat) : BitVec (u + w + w + w) := (0#u) ++ BitVec.allOnes w ++ BitVec.allOnes w ++ BitVec.allOnes w

/-- The three colour fields of a triplet. -/
theorem field_triplet {u w : Nat} (d : BitVec u) (x y z : BitVec w) :
    field (d ++ x ++ y ++ z) u w = x ∧ field (d ++ x ++ y ++ z) (u + w) w = y ∧
      field (d ++ x ++ y ++ z) (u + w + w) w = z := by
  have hx : u + w + w + w - u - w = w + w := by omega
  have hy : u + w + w + w - (u + w) - w = w := by omega
  have hz : u + w + w + w - (u + w + w) - w = 0 := by omega
  simp only [field, hx, hy, hz]
  refine ⟨?_, ?_, BitVec.extractLsb'_append_eq_right⟩ <;>
    (apply BitVec.eq_of_getLsbD_eq
     intro i hi
     simp [BitVec.getLsbD_append, hi, Nat.add_assoc])

/-- A triplet under the mask of its colour fields is that of the operands under it, with zeros in the unused bits. -/
theorem arithTriplet_and {u w : Nat} (g : BitVec 3) (d : BitVec u) (a b : BitVec (u + w + w + w)) :
    arithTriplet g d a b &&& colourMask u w = arithTriplet g 0 (a &&& colourMask u w) (b &&& colourMask u w) := by
  obtain ⟨red, green, blue⟩ := field_triplet (0#u) (.allOnes w) (.allOnes w) (.allOnes w)
  simp only [arithTriplet, field_and_of_covered _ red, field_and_of_covered _ green, field_and_of_covered _ blue,
    colourMask]
  simp only [BitVec.and_append, BitVec.and_allOnes, BitVec.and_zero, BitVec.ofNat_eq_ofNat]

/-- A triplet's colour fields depend on the colour fields of the operands alone. -/
theorem arithTriplet_and_congr {u w : Nat} (g : BitVec 3) (d d' : BitVec u) {a a' b b' : BitVec (u + w + w + w)}
    (ha : a &&& colourMask u w = a' &&& colourMask u w) (hb : b &&& colourMask u w = b' &&& colourMask u w) :
    arithTriplet g d a b &&& colourMask u w = arithTriplet g d' a' b' &&& colourMask u w := by
  rw [arithTriplet_and, arithTriplet_and, ha, hb]

/-- Two pair values agree under a mask on halfwords exactly where their halfwords agree under it. -/
theorem and_eq_and_iff_halfwords (v v' : Pair) (m : BitVec 16) :
    v &&& (m ++ m ++ m ++ m : Pair) = v' &&& (m ++ m ++ m ++ m : Pair) ↔
      ∀ k < 4, field v (16 * k) 16 &&& m = field v' (16 * k) 16 &&& m := by
  have field_mask (x : Pair) (k : Nat) (hk : k < 4) :
      field (x &&& (m ++ m ++ m ++ m : Pair)) (16 * k) 16 = field x (16 * k) 16 &&& m := by
    rw [field_and, field_append4 _ _ _ _ k hk]
    interval_cases k <;> rfl
  have append_fields (x : Pair) :
      field x (16 * 0) 16 ++ field x (16 * 1) 16 ++ field x (16 * 2) 16 ++ field x (16 * 3) 16 = x := by
    apply BitVec.eq_of_getLsbD_eq
    intro i hi
    simp only [field, BitVec.getLsbD_append, BitVec.getLsbD_extractLsb']
    interval_cases i <;> rfl
  constructor
  · intro h k hk
    rw [← field_mask v k hk, h, field_mask v' k hk]
  · intro h
    rw [← append_fields (v &&& _), ← append_fields (v' &&& _)]
    simp only [field_mask, h, Nat.reduceLT]

/-- Two pair values agree under a mask on fullwords exactly where their fullwords agree under it. -/
theorem and_eq_and_iff_fullwords (v v' : Pair) (m : BitVec 32) :
    v &&& (m ++ m : Pair) = v' &&& (m ++ m : Pair) ↔
      ∀ k < 2, field v (32 * k) 32 &&& m = field v' (32 * k) 32 &&& m := by
  have field_mask (x : Pair) (k : Nat) (hk : k < 2) :
      field (x &&& (m ++ m : Pair)) (32 * k) 32 = field x (32 * k) 32 &&& m := by
    rw [field_and, field_append2 _ _ k hk]
    interval_cases k <;> rfl
  have append_fields (x : Pair) : field x (32 * 0) 32 ++ field x (32 * 1) 32 = x := highHalf_append_lowHalf x
  constructor
  · intro h k hk
    rw [← field_mask v k hk, h, field_mask v' k hk]
  · intro h
    rw [← append_fields (v &&& _), ← append_fields (v' &&& _)]
    simp only [field_mask, h, Nat.reduceLT]

/-- The halfwords of a GR_ARITH_5 result. -/
theorem field_arith5_halfword (g : BitVec 3) (d : BitVec 4) (a b : Pair) (h : Nat) (hh : h < 4) :
    field (arith5 g d a b) (16 * h) 16 =
      arithTriplet (u := 1) (w := 5) g (field d h 1) (field a (16 * h) 16) (field b (16 * h) 16) := by
  rw [arith5, field_append4 _ _ _ _ h hh]
  interval_cases h <;> rfl

/-- The fullwords of a GR_ARITH_5_5 result. -/
theorem field_arith55_fullword (g : BitVec 3) (d : BitVec 4) (a b : Pair) (k : Nat) (hk : k < 2) :
    field (arith55 g d a b) (32 * k) 32 =
      arithTriplet (u := 2) (w := 10) g (field d (2 * k) 2) (field a (32 * k) 32) (field b (32 * k) 32) := by
  rw [arith55, field_append2 _ _ k hk]
  interval_cases k <;> rfl

theorem arith5_and_congr (g : BitVec 3) (d d' : BitVec 4) {a a' b b' : Pair}
    (ha : a &&& 0x7FFF7FFF7FFF7FFF = a' &&& 0x7FFF7FFF7FFF7FFF)
    (hb : b &&& 0x7FFF7FFF7FFF7FFF = b' &&& 0x7FFF7FFF7FFF7FFF) :
    arith5 g d a b &&& 0x7FFF7FFF7FFF7FFF = arith5 g d' a' b' &&& 0x7FFF7FFF7FFF7FFF := by
  have hmask : (0x7FFF7FFF7FFF7FFF : Pair) = (colourMask 1 5 : BitVec 16) ++ (colourMask 1 5 : BitVec 16) ++
    (colourMask 1 5 : BitVec 16) ++ (colourMask 1 5 : BitVec 16) := rfl
  rw [hmask, and_eq_and_iff_halfwords] at ha hb ⊢
  intro h hh
  rw [field_arith5_halfword _ _ _ _ h hh, field_arith5_halfword _ _ _ _ h hh]
  exact arithTriplet_and_congr g _ _ (ha h hh) (hb h hh)

theorem arith55_and_congr (g : BitVec 3) (d d' : BitVec 4) {a a' b b' : Pair}
    (ha : a &&& 0x3FFFFFFF3FFFFFFF = a' &&& 0x3FFFFFFF3FFFFFFF)
    (hb : b &&& 0x3FFFFFFF3FFFFFFF = b' &&& 0x3FFFFFFF3FFFFFFF) :
    arith55 g d a b &&& 0x3FFFFFFF3FFFFFFF = arith55 g d' a' b' &&& 0x3FFFFFFF3FFFFFFF := by
  have hmask : (0x3FFFFFFF3FFFFFFF : Pair) = (colourMask 2 10 : BitVec 32) ++ (colourMask 2 10 : BitVec 32) := rfl
  rw [hmask, and_eq_and_iff_fullwords] at ha hb ⊢
  intro k hk
  rw [field_arith55_fullword _ _ _ _ k hk, field_arith55_fullword _ _ _ _ k hk]
  exact arithTriplet_and_congr g _ _ (ha k hk) (hb k hk)

/-- The mask of a GR_PACK_5_5 result keeps the six colour fields and clears the two bits above them. -/
theorem and_packMask (d e : BitVec 1) (x0 x1 x2 x3 x4 x5 : BitVec 5) :
    (d ++ x0 ++ x1 ++ x2 ++ e ++ x3 ++ x4 ++ x5 : Word) &&& 0x7FFF7FFF =
      (0#1 ++ x0 ++ x1 ++ x2 ++ 0#1 ++ x3 ++ x4 ++ x5 : Word) := by
  have hmask : (0x7FFF7FFF : Word) = 0#1 ++ BitVec.allOnes 5 ++ BitVec.allOnes 5 ++ BitVec.allOnes 5 ++
    0#1 ++ BitVec.allOnes 5 ++ BitVec.allOnes 5 ++ BitVec.allOnes 5 := rfl
  have key : (d ++ x0 ++ x1 ++ x2 ++ e ++ x3 ++ x4 ++ x5) &&& (0#1 ++ BitVec.allOnes 5 ++ BitVec.allOnes 5 ++
      BitVec.allOnes 5 ++ 0#1 ++ BitVec.allOnes 5 ++ BitVec.allOnes 5 ++ BitVec.allOnes 5) =
      0#1 ++ x0 ++ x1 ++ x2 ++ 0#1 ++ x3 ++ x4 ++ x5 := by
    simp only [BitVec.and_append, BitVec.and_allOnes, BitVec.and_zero]
  rw [hmask]
  exact key

/-- The specified bits of a GR_PACK_5_5 result, whatever is drawn for the others. -/
theorem pack55_and (d : BitVec 2) (v : Pair) : pack55 d v &&& 0x7FFF7FFF = pack55 0 v :=
  and_packMask _ _ _ _ _ _ _ _

/-- GR_PACK_5_5 drops the bits that its mask hides. -/
theorem pack55_of_and (d : BitVec 2) (v : Pair) : pack55 d (v &&& 0x3E0F83E03E0F83E0) = pack55 d v := by
  have hidden (a : Nat) (h : field (0x3E0F83E03E0F83E0 : Pair) a 5 = .allOnes 5) :
      field (v &&& 0x3E0F83E03E0F83E0) a 5 = field v a 5 := field_and_of_covered v h
  rw [pack55, hidden 2 rfl, hidden 12 rfl, hidden 22 rfl, hidden 34 rfl, hidden 44 rfl, hidden 54 rfl]
  rfl

/-- GR_PACK_8_8 drops the bits that its mask hides. -/
theorem pack88_of_and (v : Pair) : pack88 (v &&& 0xFF00FF00FF00FF00) = pack88 v := by
  have hidden (a : Nat) (h : field (0xFF00FF00FF00FF00 : Pair) a 8 = .allOnes 8) :
      field (v &&& 0xFF00FF00FF00FF00) a 8 = field v a 8 := field_and_of_covered v h
  rw [pack88, hidden 0 rfl, hidden 16 rfl, hidden 32 rfl, hidden 48 rfl]
  rfl

/-- Where two written values agree under a mask, so do the pairs read back, at specifier 0 too. -/
theorem readPair_writePair_and_congr {s s' : State} {t : Reg} {v v' m : Pair} (ht : isEven t = true)
    (h : v &&& m = v' &&& m) : (s.writePair t v).readPair t &&& m = (s'.writePair t v').readPair t &&& m := by
  have high : highHalf v &&& highHalf m = highHalf v' &&& highHalf m := by
    rw [highHalf, highHalf, highHalf, ← BitVec.extractLsb'_and, ← BitVec.extractLsb'_and, h]
  have low : lowHalf v &&& lowHalf m = lowHalf v' &&& lowHalf m := by
    rw [lowHalf, lowHalf, lowHalf, ← BitVec.extractLsb'_and, ← BitVec.extractLsb'_and, h]
  rw [State.readPair_writePair _ _ _ ht, State.readPair_writePair _ _ _ ht, ← highHalf_append_lowHalf m,
    BitVec.and_append, BitVec.and_append, low]
  split_ifs
  · rfl
  · rw [high]

end Machine

/-- Settles O13: each result under its mask depends on the operands under theirs alone. -/
theorem unusedBitsDoNotReachResults : Obligations.UnusedBitsDoNotReachResults := by
  intro r1 r2 t s s' u u' hg
  refine ⟨fun h h' ha hb => ?arith5, fun h h' ha hb => ?arith55, fun h h' hv => ?pack55, fun h h' hv => ?pack88⟩ <;>
    obtain ⟨hwf, rfl⟩ := exec_next h <;> obtain ⟨-, rfl⟩ := exec_next h'
  case arith5 =>
    simp only [Instr.wellFormed, namesPair_eq, Bool.and_eq_true] at hwf
    refine readPair_writePair_and_congr hwf.2 ?_
    rw [hg]
    exact arith5_and_congr _ _ _ ha hb
  case arith55 =>
    simp only [Instr.wellFormed, namesPair_eq, Bool.and_eq_true] at hwf
    refine readPair_writePair_and_congr hwf.2 ?_
    rw [hg]
    exact arith55_and_congr _ _ _ ha hb
  case pack55 =>
    have key : pack55 (s.draw.extractLsb' 0 2) (s.readPair r2) &&& 0x7FFF7FFF =
        pack55 (s'.draw.extractLsb' 0 2) (s'.readPair r2) &&& 0x7FFF7FFF := by
      rw [pack55_and, pack55_and, ← pack55_of_and, hv, pack55_of_and]
    simp only [execResult, State.readGR_advancePc, State.readGR_writeGR, if_true]
    split_ifs
    · rfl
    · exact key
  case pack88 =>
    have key : pack88 (s.readPair r2) = pack88 (s'.readPair r2) := by
      rw [← pack88_of_and, hv, pack88_of_and]
    simp only [execResult, State.readGR_advancePc, State.readGR_writeGR, if_true, key]

namespace Machine

/-- The registers that a result leaves depend on the registers, the next draw and, for a GR_ARITH alone, Gr_R1. -/
theorem execResult_regs_congr {i : Instr} {s s' : State} (hregs : s'.regs = s.regs) (hdraws : s'.draws = s.draws)
    (hg : s'.grR1 = s.grR1 ∨
      ∀ r1 r2 t : Reg, i ≠ .grArith5 r1 r2 t ∧ i ≠ .grArith55 r1 r2 t ∧ i ≠ .grArith88 r1 r2 t) :
    (execResult i s').regs = (execResult i s).regs := by
  have hpair (r : Reg) : s'.readPair r = s.readPair r := State.readPair_congr hregs r
  have hdraw : s'.draw = s.draw := by rw [State.draw, State.draw, hdraws]
  cases i with
  | grArith5 r1 r2 t =>
    have hg := hg.resolve_right fun h => (h r1 r2 t).1 rfl
    simp only [execResult, State.advancePc_regs, hpair, hdraw, hg]
    exact State.writePair_regs_congr (by simpa using hregs) t _
  | grArith55 r1 r2 t =>
    have hg := hg.resolve_right fun h => (h r1 r2 t).2.1 rfl
    simp only [execResult, State.advancePc_regs, hpair, hdraw, hg]
    exact State.writePair_regs_congr (by simpa using hregs) t _
  | grArith88 r1 r2 t =>
    have hg := hg.resolve_right fun h => (h r1 r2 t).2.2 rfl
    simp only [execResult, State.advancePc_regs, hpair, hg]
    exact State.writePair_regs_congr (by simpa using hregs) t _
  | grClipSub r1 r2 t =>
    simp only [execResult, State.advancePc_regs, hpair]
    exact State.writePair_regs_congr (by simpa using hregs) t _
  | grPack55 r2 t =>
    simp only [execResult, State.advancePc_regs, hpair, hdraw]
    exact State.writeGR_regs_congr (by simpa using hregs) t _
  | grPack88 r2 t =>
    simp only [execResult, State.advancePc_regs, hpair]
    exact State.writeGR_regs_congr (by simpa using hregs) t _
  | grClipTest => exact hregs
  | grMtcl r2 => exact hregs

/-- The value that a result leaves in Gr_R1 depends on the registers and Gr_R1. -/
theorem execResult_grR1_congr {i : Instr} {s s' : State} (hregs : s'.regs = s.regs) (hg : s'.grR1 = s.grR1) :
    (execResult i s').grR1 = (execResult i s).grR1 := by
  cases i <;> simp [execResult, hg, State.readGR_congr hregs]

/-- The values that a result leaves in SX and SY depend on the registers and SX and SY. -/
theorem execResult_shiftRegisters_congr {i : Instr} {s s' : State} (hregs : s'.regs = s.regs) (hx : s'.sx = s.sx)
    (hy : s'.sy = s.sy) : (execResult i s').sx = (execResult i s).sx ∧ (execResult i s').sy = (execResult i s).sy := by
  cases i <;> simp [execResult, hx, hy, State.readPair_congr hregs]

end Machine

/-- Settles O29: no other instruction's result is computed from the register that differs. -/
theorem controlRegistersAreSeenByTheirReadersOnly : Obligations.ControlRegistersAreSeenByTheirReadersOnly := by
  intro i s u u' g x y
  constructor
  · intro hi h h'
    obtain ⟨-, rfl⟩ := exec_next h
    obtain ⟨-, rfl⟩ := exec_next h'
    obtain ⟨hpc, hmem, -⟩ := result_keeps i s
    obtain ⟨hpc', hmem', -⟩ := result_keeps i { s with sx := x, sy := y }
    refine ⟨execResult_regs_congr rfl rfl (.inl rfl), ?_, execResult_grR1_congr rfl rfl, hpc'.trans hpc.symm,
      hmem'.trans hmem.symm⟩
    rw [execResult_pswN, execResult_pswN, if_neg hi, if_neg hi]
  · intro hi h h'
    obtain ⟨-, rfl⟩ := exec_next h
    obtain ⟨-, rfl⟩ := exec_next h'
    obtain ⟨hpc, hmem, -⟩ := result_keeps i s
    obtain ⟨hpc', hmem', -⟩ := result_keeps i { s with grR1 := g }
    obtain ⟨hx, hy⟩ := execResult_shiftRegisters_congr (i := i) (s := s) (s' := { s with grR1 := g }) rfl rfl rfl
    refine ⟨execResult_regs_congr rfl rfl (.inr hi), ?_, hx, hy, hpc'.trans hpc.symm, hmem'.trans hmem.symm⟩
    rw [execResult_pswN, execResult_pswN]

end Sys2Proof
end

section
/-!
SUPPORT. The launch and the run of a program (70_reset_and_hazards.md sections 4 and 6).
-/

namespace Sys2Proof

open Machine

/-- Settles O44: the launch state is the load's, whose text and cells are the launch's. -/
theorem launchMeetsThePremises : Obligations.LaunchMeetsThePremises := by
  intro l s hbase hend hnodup hhost
  have hload := load_eq (l := l) s hbase hend
  refine ⟨_, { lp_pc := ⟨rfl, hbase, hend⟩, lp_n := rfl, lp_text := load_text hload, lp_unit := by simp [hhost],
               lp_alone := by simp [hhost], lp_clean := hload, lp_state := load_cells hload hnodup,
               lp_param := trivial }, ?_, ?_, (givenBits_and _ _ _).2, (givenBits_and _ _ _).2, fun hzero => ?_⟩
  · exact fun r hr => State.readGR_writeGRs_other s _ r hr
  · intro hg
    simp [hg]
  · have htop : l.base.toNat + 4 * l.text.length ≤ 2 ^ 32 := by omega
    exact ⟨Memory.wfFrom_ofWords _ _ _ (Nat.zero_le _) htop, hbase, (State.writeGRs_regs_zero s _).trans hzero⟩

/-- Settles O45: the host's list is looked at first, then the base, then the end. -/
theorem launchStopsByName : Obligations.LaunchStopsByName := by
  intro l s
  refine ⟨fun e rest hhost => ?event, fun hhost hbase => ?base, fun hhost hbase hend => ?stop⟩
  case event => simp only [Launch.run, hhost]
  case base =>
    have hload : l.load s = .refused .misalignedPc := by rw [Launch.load, if_pos hbase]
    simp only [Launch.run, hhost, hload]
  case stop =>
    have hload : l.load s = .refused .pcWrap := by rw [Launch.load, if_neg (not_not.2 hbase), Launch.stop, if_pos hend]
    simp only [Launch.run, hhost, hload]

namespace Machine

/-- Under LP_unit and LP_alone the host does nothing. -/
theorem LaunchPremises.host_eq_nil {l : Launch} {named : (BitVec 4 → BitVec 4 → Bool) → ClipSubBorrow → Prop}
    {o : Host.Outcome State Fault Refusal} {s : State} (h : LaunchPremises l named o s) : l.host = [] := by
  refine List.eq_nil_iff_forall_not_mem.2 fun e he => ?_
  cases e
  case unitUnavailable => exact h.lp_unit he
  case interrupt => exact h.lp_alone.1 he
  case otherUser => exact h.lp_alone.2 he

/-- Until its last word a run is not at its end, so it takes one step per word. -/
theorem runUntil_eq_run {stop k : Nat} {s : State} (h : s.pc.toNat + 4 * k = stop) :
    runUntil stop k s = (Host.Core.run core k s : Host.Outcome State Fault Refusal) := by
  induction k generalizing s with
  | zero => rfl
  | succ k ih =>
    obtain ⟨hnext, hrefused⟩ := runUntil_succ (stop := stop) (k := k) (s := s) (by omega)
    cases hs : step s with
    | next u =>
      obtain ⟨hpc, -, -⟩ := step_keeps hs
      rw [hnext u hs, ih (by omega)]
      exact (run_of_next (M := core) hs).symm
    | fault f => cases f
    | refused r =>
      rw [hrefused r hs]
      exact (run_of_refused (M := core) hs).symm

/-- Under the launch premises a run is one step per word. -/
theorem LaunchPremises.run_eq_run {l : Launch} {named : (BitVec 4 → BitVec 4 → Bool) → ClipSubBorrow → Prop}
    {s u : State} (h : LaunchPremises l named (l.load s) u) :
    l.run s = (Host.Core.run core l.text.length u : Host.Outcome State Fault Refusal) := by
  rw [run_eq h.host_eq_nil h.lp_clean]
  exact runUntil_eq_run (by rw [h.lp_pc.1, Launch.stop])

/-- From an aligned pc a run completes where each of its words decodes and none is the last of the address space. -/
theorem run_completes {k : Nat} {s : State} (hpc : s.pc.toNat % 4 = 0) (hend : s.pc.toNat + 4 * k ≤ 0xFFFFFFFC)
    (htext : ∀ j < k, ∃ (w : Word) (i : Instr), s.textAt (s.pc.toNat + 4 * j) w ∧ decode w = .ok i) :
    ∃ s' : State, Host.Core.run core k s = .next s' := by
  induction k generalizing s with
  | zero => exact ⟨s, rfl⟩
  | succ k ih =>
    obtain ⟨w, i, hw, hi⟩ := htext 0 (by omega)
    have htop : s.pc ≠ 0xFFFFFFFC := by
      intro e
      rw [e] at hend
      exact absurd hend (by simp)
    obtain ⟨u, hu⟩ := (stepCompletesExactlyWhere s).2 ⟨hpc, htop, w, hw, .inr ⟨i, hi⟩⟩
    obtain ⟨hpcu, hmem, -⟩ := step_keeps hu
    obtain ⟨s', hs'⟩ := ih (s := u) (by omega) (by omega) (by
      intro j hj
      obtain ⟨w', i', hw', hi'⟩ := htext (j + 1) (by omega)
      have ha : u.pc.toNat + 4 * j = s.pc.toNat + 4 * (j + 1) := by omega
      rw [ha]
      exact ⟨w', i', (textAt_congr hmem).2 hw', hi'⟩)
    exact ⟨s', (run_of_next (M := core) hu).trans hs'⟩

end Machine

/-- Settles O46: the run is the steps, and steps move the pc by 4 each and keep the text. -/
theorem programRunIsOneStepPerWord : Obligations.ProgramRunIsOneStepPerWord := by
  intro l named s u h
  refine ⟨h.run_eq_run, fun s' hs' => ?_⟩
  rw [h.run_eq_run] at hs'
  obtain ⟨hpc, hmem, -⟩ := runAdvancesAndKeepsTheText _ _ _ hs'
  rw [h.lp_pc.1] at hpc
  exact ⟨hpc, hmem⟩

/-- Settles O47: each word stands where the run comes to it, and decodes. -/
theorem decodableProgramRunsToItsEnd : Obligations.DecodableProgramRunsToItsEnd := by
  intro l named s u h hdec
  obtain ⟨hpc, hbase, hend⟩ := h.lp_pc
  have hcomplete : ∃ s' : State, Host.Core.run core l.text.length u = .next s' := by
    rw [← hpc] at hbase hend
    refine run_completes hbase hend fun j hj => ?_
    obtain ⟨i, hi⟩ := hdec l.text[j] (List.getElem_mem hj)
    rw [hpc]
    exact ⟨_, i, h.lp_text.1 j _ (List.getElem?_eq_getElem hj), hi⟩
  obtain ⟨s', hs'⟩ := hcomplete
  rw [← h.run_eq_run] at hs'
  exact ⟨s', hs', ((programRunIsOneStepPerWord l named s u h).2 s' hs').1⟩

end Sys2Proof
end
